-- ==== Sys2Proof/Word.lean ====
section
/-! DEFINITION. The word types of the datapath: a byte (R9), a channel (CH_W = 8, R6). -/

namespace Sys2Proof

/-- A byte of IN or OUT, and a channel value: 8 bits (00_scope.md R9, R6 CH_W). -/
abbrev Byte := BitVec 8

end Sys2Proof
end

