-- ==== Sys2Proof/Config.lean ====
section
/-! DEFINITION. The parameters of 00_scope.md R6 and the free values: what the spec leaves open. -/

namespace Sys2Proof.Config

/-- HDR_LEN: the header's length in bytes (R6, R101). -/
def hdrLen : Nat := 14

/-- PAD_LEN: the trailing padding's length in bytes (R6, R100). -/
def padLen : Nat := 8

/-- MIN_LEN: the shortest input accepted, `14 + 8` (R6, R131). -/
def minLen : Nat := hdrLen + padLen

/-- PIXEL_CEILING: the largest `width * height` accepted, at the spec's default.
R7 asks for a configuration value: every rule, and every width that follows from it, reads it from here. -/
abbrev pixelCeiling : Nat := 400000000

/-- CACHE_SLOTS: entries of the pixel cache (R6, R40). -/
abbrev cacheSlots : Nat := 64

/-- RUN_W: bits of the run counter (R6, R262). -/
abbrev runW : Nat := 6

/-- `ceil(log2 n)`, for `n >= 1`: the exponent of the least power of two that is not below `n`. -/
abbrev ceilLog2 (n : Nat) : Nat := Nat.log2 (2 * n - 1)

/-- PIX_W: bits of the pixel counter, `ceil(log2(PIXEL_CEILING + 1))` (R6), which is 29 at the default. -/
abbrev pixW : Nat := ceilLog2 (pixelCeiling + 1)

/-- OUT_ADDR_W: bits of an output byte address, `ceil(log2(4 * PIXEL_CEILING))` (R6), which is 31 at the default. -/
abbrev outAddrW : Nat := ceilLog2 (4 * pixelCeiling)

/-- The default of IN_LEN_W, the bits of `in_len`, `len` and the read cursor (R6). The width itself is OPEN: it is an
argument of every rule, the field `inLenW` of the state (log 8). -/
def defaultInLenW : Nat := 32

/-- A FREE VALUE of `w` bits: the `n`-th that is drawn. It has no body, so nothing is known of it.
It stands for the registers that T_RESET makes UNSPEC (R320, U1) and for what a host reads of OUT
where the spec promises nothing (R84, U3, U4, U5). DESIGN CHOICE, safe (log 2, log 11). -/
opaque freeValue (w : Nat) : Nat → BitVec w

end Sys2Proof.Config
end

