-- ==== Sys2Proof/Syntax.lean ====
section
/-! DEFINITION. The chunk grammar (00_scope.md R2): the six ops, and an instruction as one chunk with the fields
that 30_encoding.md R103 gives it. -/

namespace Sys2Proof

/-- What an op byte selects (R105). -/
inductive Op where
  | rgba | rgb | index | diff | luma | run
  deriving DecidableEq, Repr

/-- One chunk, with its fields as R103 names them (the raw fields; `Machine/Operands.lean` says what
delta a field means). -/
inductive Instr where
  /-- RGBA literal: the operand bytes b1 to b4 (R190). -/
  | rgba (r g b a : Byte)
  /-- RGB literal: the operand bytes b1 to b3 (R191). -/
  | rgb (r g b : Byte)
  /-- INDEX: `idx`, a slot of the pixel cache (R210). -/
  | index (idx : BitVec 6)
  /-- DIFF: the fields `dr_f`, `dg_f`, `db_f` (R231). -/
  | diff (drF dgF dbF : BitVec 2)
  /-- LUMA: the field `dg_f` of the op byte, `drdg_f` and `dbdg_f` of the operand byte (R232). -/
  | luma (dgF : BitVec 6) (drdgF dbdgF : BitVec 4)
  /-- RUN: the field `rl_f`, one less than the run's length (R260). -/
  | run (rlF : BitVec 6)
  deriving DecidableEq, Repr

end Sys2Proof
end

