-- ==== Sys2Proof/WellFormed.lean ====
section
/-! DEFINITION. Which instructions an op byte can spell. -/

namespace Sys2Proof

/-- The one bound the grammar puts on a field beyond its width: a RUN field is 0..61, since 62 and 63
would make the op byte 0xFE (RGB) or 0xFF (RGBA) (30_encoding.md R110). -/
def Instr.wf : Instr → Bool
  | .rgba _ _ _ _ => true
  | .rgb _ _ _ => true
  | .index _ => true
  | .diff _ _ _ => true
  | .luma _ _ _ => true
  | .run rlF => decide (rlF.toNat ≤ 61)

end Sys2Proof
end

