-- ==== Sys2Proof/Decode.lean ====
section
/-! DEFINITION. The op-byte decoder (30_encoding.md R105), the chunk decoder (R102 to R111) and the encoder, both
written from the same format tables. -/

namespace Sys2Proof

/-- R105: the two full-byte tags are tested before the 2-bit class. -/
def opOf (b0 : Byte) : Op :=
  if b0 = 0xFF#8 then .rgba
  else if b0 = 0xFE#8 then .rgb
  else if b0.extractLsb' 6 2 = 0b00#2 then .index
  else if b0.extractLsb' 6 2 = 0b01#2 then .diff
  else if b0.extractLsb' 6 2 = 0b10#2 then .luma
  else .run

/-- R104: the op alone fixes the chunk's length in bytes. -/
def clen : Op → Nat
  | .rgba => 5
  | .rgb => 4
  | .index => 1
  | .diff => 1
  | .luma => 2
  | .run => 1

/-- The op an instruction is a chunk of. -/
def Instr.op : Instr → Op
  | .rgba _ _ _ _ => .rgba
  | .rgb _ _ _ => .rgb
  | .index _ => .index
  | .diff _ _ _ => .diff
  | .luma _ _ _ => .luma
  | .run _ => .run

/-- Why a list of bytes is not the beginning of a chunk. No op byte is illegal (R106), so only a list
that is too short is rejected. -/
inductive DecodeError where
  /-- There is no op byte. -/
  | noOpByte
  /-- The op byte selects an op whose operand bytes are not all there. -/
  | missingOperands (op : Op)
  deriving DecidableEq, Repr

/-- The instruction that op byte `b0` and the operand bytes after it spell, with the bytes left over
(the fields of R103; no field of the header plays a part, R113). -/
def decodeOp (b0 : Byte) (rest : List Byte) : Except DecodeError (Instr × List Byte) :=
  match opOf b0, rest with
  | .rgba, r :: g :: b :: a :: rest => .ok (.rgba r g b a, rest)
  | .rgba, _ => .error (.missingOperands .rgba)
  | .rgb, r :: g :: b :: rest => .ok (.rgb r g b, rest)
  | .rgb, _ => .error (.missingOperands .rgb)
  | .index, rest => .ok (.index (b0.extractLsb' 0 6), rest)
  | .diff, rest => .ok (.diff (b0.extractLsb' 4 2) (b0.extractLsb' 2 2) (b0.extractLsb' 0 2), rest)
  | .luma, b1 :: rest => .ok (.luma (b0.extractLsb' 0 6) (b1.extractLsb' 4 4) (b1.extractLsb' 0 4), rest)
  | .luma, [] => .error (.missingOperands .luma)
  | .run, rest => .ok (.run (b0.extractLsb' 0 6), rest)

/-- The first chunk of a list of bytes, with the bytes after it. -/
def decode : List Byte → Except DecodeError (Instr × List Byte)
  | [] => .error .noOpByte
  | b0 :: rest => decodeOp b0 rest

/-- The bytes of an instruction (R102, R103). -/
def encode : Instr → List Byte
  | .rgba r g b a => [0xFF#8, r, g, b, a]
  | .rgb r g b => [0xFE#8, r, g, b]
  | .index idx => [0b00#2 ++ idx]
  | .diff drF dgF dbF => [0b01#2 ++ drF ++ dgF ++ dbF]
  | .luma dgF drdgF dbdgF => [0b10#2 ++ dgF, drdgF ++ dbdgF]
  | .run rlF => [0b11#2 ++ rlF]

/-- The bytes of a table word: byte k of the chunk is bits 8k+7..8k of `w`; every bit from `nbits` up
is 0, up to the longest chunk (5 bytes). -/
def tableBytes (nbits w : Nat) : List Byte :=
  let v := w % 2 ^ nbits
  [BitVec.ofNat 8 v, BitVec.ofNat 8 (v >>> 8), BitVec.ofNat 8 (v >>> 16), BitVec.ofNat 8 (v >>> 24),
    BitVec.ofNat 8 (v >>> 32)]

/-- What the decoder reads from a word numbered as spec/opcode_table.json numbers its rows. -/
def decodeTableWord (nbits w : Nat) : Option Instr :=
  match decode (tableBytes nbits w) with
  | .ok (i, _) => some i
  | .error _ => none

end Sys2Proof
end

