-- ==== Sys2Proof/Machine/State.lean ====
section
/-! DEFINITION. The architectural state (10_state.md), the reasons a step can stop, and the state after reset. -/

namespace Sys2Proof.Machine

open Sys2Proof

/-- The control state `fsm` (R30). -/
inductive Fsm where
  | idle | validate | decode | done | error
  deriving DecidableEq, Repr

/-- A pixel: four unsigned 8-bit channels (R11, R34). -/
structure Pixel where
  r : Byte
  g : Byte
  b : Byte
  a : Byte
  deriving DecidableEq, Repr

/-- The levels the host drives at the block's inputs (R46, R320, R76). They are no registers of the
block: a step only samples them, and only the host changes them (log 6). -/
structure HostPins where
  /-- `rst`, the synchronous reset (R320). -/
  rst : Bool
  /-- H0 `start`. -/
  start : Bool
  /-- H1 `in_len`, a number of IN_LEN_W bits. -/
  inLen : Nat
  /-- H2 `req_ch_en`. -/
  reqChEn : Bool
  /-- H3 `req_ch4`. -/
  reqCh4 : Bool
  /-- `out_ready`, the stall input of the output port (R76). -/
  outReady : Bool
  deriving DecidableEq, Repr

/-- The machine at a transition boundary: every register of 10_state.md, the two memories, the host's
input levels, the parameter IN_LEN_W, and two fields of the model's own (`outOpen`, `draws`). -/
structure State where
  /-- The host's input levels. -/
  pins : HostPins
  /-- `fsm` (R30). -/
  fsm : Fsm
  /-- `err_code` (R39). -/
  errCode : BitVec 3
  /-- `hdr_w` (R38). -/
  hdrW : BitVec 32
  /-- `hdr_h` (R38). -/
  hdrH : BitVec 32
  /-- `src_ch` (R38). -/
  srcCh : BitVec 3
  /-- `cs` (R38). -/
  cs : BitVec 4
  /-- `out_ch` (R38, R139). -/
  outCh : BitVec 3
  /-- `total` (R38). -/
  total : BitVec Config.pixW
  /-- `len` (R37). -/
  len : Nat
  /-- `req_en` (R37). -/
  reqEn : Bool
  /-- `req4` (R37). -/
  req4 : Bool
  /-- `px`, the current pixel (R34). -/
  px : Pixel
  /-- `run`, the run counter (R35). -/
  run : BitVec Config.runW
  /-- `cur`, the read cursor (R33). -/
  cur : Nat
  /-- `pix`, the pixel counter (R36). -/
  pix : BitVec Config.pixW
  /-- `cache`, the pixel cache (R40). -/
  cache : Vector Pixel Config.cacheSlots
  /-- IN (R70): what the host has placed, by offset. -/
  inMem : List Host.Cell
  /-- OUT (R74): the bytes known, by offset. -/
  outMem : List Host.Cell
  /-- The model's own: the ranges `lo <= a < hi` of OUT offsets that have any value for a host read, because a decode
  that owned them was abandoned (R321, U5; log 11). -/
  outOpen : List (Nat × Nat)
  /-- The model's own: how many free values have been drawn (log 2). -/
  draws : Nat
  /-- IN_LEN_W (R6, D16): the width of `in_len`, `len` and `cur`. A parameter of the block, which no step and no host
  move changes; the three are numbers below `2 ^ inLenW` (log 8). -/
  inLenW : Nat
  deriving DecidableEq, Repr

/-- Why the machine stops. The seven header errors are no faults: they are next states (R281). -/
inductive Fault where
  /-- The stuck state of U9 and R324: the host never answers the read of IN at offset `a`, because it
  has placed no byte there. Raised by `readIn`, for T_VALIDATE and for an op fetch. Safe (log 4). -/
  | inputUnanswered (a : Nat)
  /-- A read of IN at an offset `a >= len`, which does not exist (R12, R72). Raised by `readIn`; no
  step reaches it (R72). Safe (log 4). -/
  | inputOutOfRange (a : Nat)
  deriving DecidableEq, Repr

/-- Why the model gives no meaning. -/
inductive Refusal where
  /-- An instruction that has no meaning in `exec` yet, by its mnemonic. No arm raises it now. Safe. -/
  | notModelled (mnemonic : String)
  /-- The bytes fetched are no chunk. Raised by T_PIXEL if the decoder rejects; no step reaches it,
  because every op byte is legal (R106) and all its operand bytes are fetched. Safe. -/
  | undecodable (e : DecodeError)
  /-- The host changes IN while `busy = 1` (R71, U6). Raised by `hostMove`. Safe (log 10). -/
  | inputChangedWhileBusy
  /-- The host presents a length, or a file, of 2^IN_LEN_W bytes or more (U12). Raised by `hostMove`. Safe (log 10). -/
  | inputTooLong
  /-- The host writes OUT while `busy = 1` where the decode's image goes (R324, U7). Raised by
  `hostMove`. Safe (log 10). -/
  | outputWrittenWhileBusy
  deriving DecidableEq, Repr

/-- Right after T_RESET (R50, R320): `fsm` IDLE, and `err_code`, `hdr_w`, `hdr_h`, `out_ch`, `cs` zero.
IN_LEN_W is at its default (R6). DESIGN CHOICE: the registers R50 leaves UNSPEC hold zero here, `out_ready` is high, the other input
levels are low, and neither memory lists a byte. Unsafe (log 1, log 6). -/
def State.reset : State where
  pins := { rst := false, start := false, inLen := 0, reqChEn := false, reqCh4 := false, outReady := true }
  fsm := .idle
  errCode := 0#_
  hdrW := 0#_
  hdrH := 0#_
  srcCh := 0#_
  cs := 0#_
  outCh := 0#_
  total := 0#_
  len := 0
  reqEn := false
  req4 := false
  px := { r := 0#_, g := 0#_, b := 0#_, a := 0#_ }
  run := 0#_
  cur := 0
  pix := 0#_
  cache := Vector.replicate _ { r := 0#_, g := 0#_, b := 0#_, a := 0#_ }
  inMem := []
  outMem := []
  outOpen := []
  draws := 0
  inLenW := Config.defaultInLenW

end Sys2Proof.Machine
end

