-- ==== Sys2Proof/Machine/Memory.lean ====
section
/-! DEFINITION. The one form in which IN and OUT are held: a list of cells, addresses strictly rising. An address
that is not listed has no value: for IN the host has placed no byte there (log 4), for OUT nothing is known (log 5). -/

namespace Sys2Proof.Machine

/-- The canonical form: addresses strictly rising. Unlisted means no value, so no listed byte equals
what an unlisted address reads as. -/
abbrev memWf (m : List Host.Cell) : Prop := m.Pairwise (fun c d => c.1 < d.1)

/-- The byte at `a`; none if `a` is not listed. -/
def memRead : List Host.Cell → Nat → Option Byte
  | [], _ => none
  | c :: m, a => if c.1 = a then some c.2 else memRead m a

/-- Write `v` at `a`, keeping the canonical form. -/
def memWrite : List Host.Cell → Nat → Byte → List Host.Cell
  | [], a, v => [(a, v)]
  | c :: m, a, v =>
    if a < c.1 then (a, v) :: c :: m
    else if a = c.1 then (a, v) :: m
    else c :: memWrite m a v

/-- Write the bytes `vs` from `a` upward. -/
def memWriteBytes (m : List Host.Cell) (a : Nat) : List Byte → List Host.Cell
  | [] => m
  | v :: vs => memWriteBytes (memWrite m a v) (a + 1) vs

/-- The memory that lists exactly the bytes `vs`, from `a` upward. -/
def memOfBytes (a : Nat) : List Byte → List Host.Cell
  | [] => []
  | v :: vs => (a, v) :: memOfBytes (a + 1) vs

/-! Sets of offsets, as lists of ranges `lo <= a < hi`. -/

/-- Does `a` lie in one of the ranges? -/
def offsetIn (l : List (Nat × Nat)) (a : Nat) : Bool := l.any fun r => decide (r.1 ≤ a ∧ a < r.2)

/-- The ranges without the offsets `lo <= a < hi`. -/
def offsetsRemove (lo hi : Nat) : List (Nat × Nat) → List (Nat × Nat)
  | [] => []
  | r :: l =>
    [(r.1, min r.2 lo), (max r.1 hi, r.2)].filter (fun q => decide (q.1 < q.2)) ++ offsetsRemove lo hi l

end Sys2Proof.Machine
end

