-- ==== Sys2Proof/Machine/Ops.lean ====
section
/-! DEFINITION. The shared operations: reading IN, the hash and the pixel cache, the register updates, the output
write port and the pixel count, taking a header error and clearing one. -/

namespace Sys2Proof.Machine

open Sys2Proof

/-! ## The registers of IN_LEN_W bits -/

/-- What `len` or `cur` holds when `n` is written to it: the low IN_LEN_W bits (R6, R33, R37). -/
def lenBits (s : State) (n : Nat) : Nat := n % 2 ^ s.inLenW

/-! ## Reading IN -/

/-- `In(a)` (R12): the byte at offset `a`, defined for `a < len`. A byte the host has not placed is
never answered (U9). -/
def readIn (s : State) (a : Nat) : Except Fault Byte :=
  if a < s.len then
    match memRead s.inMem a with
    | some b => .ok b
    | none => .error (.inputUnanswered a)
  else .error (.inputOutOfRange a)

/-- `n` bytes of IN from offset `a`, in increasing order (R164). -/
def readInBytes (s : State) (a : Nat) : Nat → Except Fault (List Byte)
  | 0 => .ok []
  | n + 1 =>
    match readIn s a with
    | .error f => .error f
    | .ok b =>
      match readInBytes s (a + 1) n with
      | .error f => .error f
      | .ok bs => .ok (b :: bs)

/-- Four bytes as a 32-bit value, the first one most significant (R12 `u32be`, R77). -/
def beWord (b0 b1 b2 b3 : Byte) : BitVec 32 := b0 ++ b1 ++ b2 ++ b3

/-- `u32be(a)` (R12). -/
def readU32be (s : State) (a : Nat) : Except Fault (BitVec 32) :=
  match readIn s a, readIn s (a + 1), readIn s (a + 2), readIn s (a + 3) with
  | .ok b0, .ok b1, .ok b2, .ok b3 => .ok (beWord b0 b1 b2 b3)
  | .error f, _, _, _ => .error f
  | _, .error f, _, _ => .error f
  | _, _, .error f, _ => .error f
  | _, _, _, .error f => .error f

/-- `len - 8`, the first offset of the padding region (R162), as an integer at or above 0. -/
def padStart (s : State) : Nat := s.len - Config.padLen

/-! ## The current pixel, the hash and the cache -/

/-- `hash(p)` (R13). -/
def pixelHash (p : Pixel) : BitVec 6 :=
  BitVec.ofNat 6 (p.r.toNat * 3 + p.g.toNat * 5 + p.b.toNat * 7 + p.a.toNat * 11)

/-- Transparent black, the start value of a cache entry (R41 c). -/
def zeroPixel : Pixel := { r := 0#8, g := 0#8, b := 0#8, a := 0#8 }

/-- The start value of the current pixel (R138). -/
def startPixel : Pixel := { r := 0#8, g := 0#8, b := 0#8, a := 255#8 }

/-- A pixel in the lanes of the output port, and of a cache entry: `{a, b, g, r}` (R76, R42). -/
def packPixel (p : Pixel) : BitVec 32 := p.a ++ p.b ++ p.g ++ p.r

/-- `cache[idx]` (R40, R41 a). -/
def cacheRead (s : State) (idx : BitVec 6) : Pixel := s.cache[idx.toNat]'idx.isLt

/-- `px <- p` (R34). -/
def setPx (p : Pixel) (s : State) : State := { s with px := p }

/-- `run <- n` (R35). -/
def setRun (n : BitVec Config.runW) (s : State) : State := { s with run := n }

/-- `cur <- cur + n` (R165). -/
def advanceCur (n : Nat) (s : State) : State := { s with cur := lenBits s (s.cur + n) }

/-- `cache[hash(px)] <- px` (R167). -/
def updateCache (s : State) : State :=
  { s with cache := s.cache.set (pixelHash s.px).toNat s.px (pixelHash s.px).isLt }

/-! ## The output port and the pixel count -/

/-- One write on the output port (R76): `out_addr`, `out_wdata`, `out_be`. -/
structure PortWrite where
  addr : BitVec Config.outAddrW
  wdata : BitVec 32
  be : BitVec 4
  deriving DecidableEq, Repr

/-- The write the block puts on the port for the current pixel (R76). -/
def portWrite (s : State) : PortWrite where
  addr := BitVec.ofNat _ (s.pix.toNat * s.outCh.toNat)
  wdata := packPixel s.px
  be := if s.outCh = 4#3 then 0b1111#4 else 0b0111#4

/-- Lane `k` of an accepted write: byte `k` goes to offset `addr + k` if its enable is set (R76). -/
def acceptLane (w : PortWrite) (k : Nat) (m : List Host.Cell) : List Host.Cell :=
  if w.be.getLsbD k then memWrite m (w.addr.toNat + k) (w.wdata.extractLsb' (8 * k) 8) else m

/-- An accepted write: its lanes in increasing order (R76). -/
def acceptWrite (w : PortWrite) (m : List Host.Cell) : List Host.Cell :=
  acceptLane w 3 (acceptLane w 2 (acceptLane w 1 (acceptLane w 0 m)))

/-- `write_pixel(px, pix * out_ch)` (R169), which is one port write (R76). -/
def writePixel (s : State) : State := { s with outMem := acceptWrite (portWrite s) s.outMem }

/-- `pix <- pix + 1`, and DONE when the new `pix` equals `total` (R168). -/
def countPixel (s : State) : State :=
  { s with pix := s.pix + 1#_, fsm := if s.pix + 1#_ = s.total then .done else s.fsm }

/-- The end of every T_PIXEL: the pixel write, then the count (R160). -/
def emitPixel (s : State) : State := countPixel (writePixel s)

/-- The end of a T_PIXEL that reads a chunk, after the op has updated `px` and `run` (R160): the cursor
(R165), then the cache (R167), then the pixel write and the count (R169, R168). -/
def finishOp (op : Op) (s : State) : State := emitPixel (updateCache (advanceCur (clen op) s))

/-! ## Taking a header error, and clearing one -/

/-- The seven failures of a header, the block's only exceptions (R280). -/
inductive HeaderError where
  | tooShort | badMagic | illegalWidth | illegalHeight | imageTooLarge | illegalChannels | illegalColorspace
  deriving DecidableEq, Repr

/-- The number of an error in `err_code` (R280). -/
def errorCode : HeaderError → BitVec 3
  | .tooShort => 1#3
  | .badMagic => 2#3
  | .illegalWidth => 3#3
  | .illegalHeight => 4#3
  | .imageTooLarge => 5#3
  | .illegalChannels => 6#3
  | .illegalColorspace => 7#3

/-- `raise Err(k)` (R281): the error entry writes `err_code` and `fsm`, and nothing else. -/
def raiseErr (e : HeaderError) (s : State) : State := { s with errCode := errorCode e, fsm := .error }

/-- The clearing of the result registers that leaving ERROR does, in T_START and in T_RESET (R31, R320,
R285): `err_code`, `hdr_w`, `hdr_h`, `out_ch` and `cs` become 0. -/
def clearResults (s : State) : State :=
  { s with errCode := 0#_, hdrW := 0#_, hdrH := 0#_, outCh := 0#_, cs := 0#_ }

end Sys2Proof.Machine
end

