-- ==== Sys2Proof/Machine/Control.lean ====
section
/-! DEFINITION. The transitions T_START, T_HOLD (10_state.md R31, R32) and T_RESET (70_reset_and_hazards.md R320). -/

namespace Sys2Proof.Machine

open Sys2Proof

/-- The model's `outOpen` when the block leaves the state it is in by T_START or T_RESET. A decode that
is abandoned opens its whole image (R321, U5); one that is done has settled its image (R83 d), which a later
decode that fails keeps (R284). -/
def outOpenAfter (s : State) : List (Nat × Nat) :=
  match s.fsm with
  | .decode => (0, s.total.toNat * s.outCh.toNat) :: s.outOpen
  | .done => offsetsRemove 0 (s.total.toNat * s.outCh.toNat) s.outOpen
  | .idle => s.outOpen
  | .validate => s.outOpen
  | .error => s.outOpen

/-- T_START (R31): latch the host's inputs, clear the result registers, enter VALIDATE. -/
def tStart (s : State) : State :=
  { clearResults s with
    len := lenBits s s.pins.inLen
    reqEn := s.pins.reqChEn
    req4 := s.pins.reqCh4
    outOpen := outOpenAfter s
    fsm := .validate }

/-- T_HOLD (R32): every register and both memories stay. -/
def tHold (s : State) : State := s

/-- A free pixel, from the draws `n` to `n + 3`. -/
def freePixel (n : Nat) : Pixel where
  r := Config.freeValue 8 n
  g := Config.freeValue 8 (n + 1)
  b := Config.freeValue 8 (n + 2)
  a := Config.freeValue 8 (n + 3)

/-- How many draws one T_RESET takes: eight registers, and four channels each of `px` and of the 64
cache entries. -/
def resetDraws : Nat := 8 + 4 + 4 * Config.cacheSlots

/-- T_RESET (R320): IDLE, the result registers 0; every other register and the cache become UNSPEC,
which is a free value each (log 2). IN and OUT keep their bytes (R321). -/
def tReset (s : State) : State :=
  { clearResults s with
    fsm := .idle
    len := (Config.freeValue s.inLenW s.draws).toNat
    reqEn := Config.freeValue 1 (s.draws + 1) == 1#1
    req4 := Config.freeValue 1 (s.draws + 2) == 1#1
    srcCh := Config.freeValue _ (s.draws + 3)
    total := Config.freeValue _ (s.draws + 4)
    run := Config.freeValue _ (s.draws + 5)
    cur := (Config.freeValue s.inLenW (s.draws + 6)).toNat
    pix := Config.freeValue _ (s.draws + 7)
    px := freePixel (s.draws + 8)
    cache := Vector.ofFn (fun k : Fin Config.cacheSlots => freePixel (s.draws + 12 + 4 * k.val))
    outOpen := outOpenAfter s
    draws := s.draws + resetDraws }

end Sys2Proof.Machine
end

