-- ==== Sys2Proof/Machine/Operands.lean ====
section
/-! DEFINITION. The operand forms (30_encoding.md R107 to R111): the signed delta each field means, and the channel
adder that applies one (44_diff_ops.md R230). -/

namespace Sys2Proof.Machine

open Sys2Proof

/-- A DIFF field: bias 2, so -2..1 (R108). -/
def diffDelta (f : BitVec 2) : Int := (f.toNat : Int) - 2

/-- LUMA's green delta: bias 32, so -32..31 (R109). -/
def lumaGreen (dgF : BitVec 6) : Int := (dgF.toNat : Int) - 32

/-- LUMA's red or blue delta, from the green delta and a nibble of bias 8: -40..38 (R109). -/
def lumaOther (dgF : BitVec 6) (nibble : BitVec 4) : Int := lumaGreen dgF - 8 + (nibble.toNat : Int)

/-- `ch +8 d` (R230): the exact sum, reduced to 8 bits. -/
def addChannel (ch : Byte) (d : Int) : Byte := BitVec.ofInt 8 ((ch.toNat : Int) + d)

/-- The three channel adders side by side; alpha passes through (R233). -/
def addPixel (p : Pixel) (dr dg db : Int) : Pixel :=
  { r := addChannel p.r dr, g := addChannel p.g dg, b := addChannel p.b db, a := p.a }

/-- The number of output pixels a RUN chunk covers, `rl_f + 1` (R110). -/
def runLength (rlF : BitVec 6) : Nat := rlF.toNat + 1

end Sys2Proof.Machine
end

