-- ==== Sys2Proof/Machine/Diff.lean ====
section
/-! DEFINITION. The difference ops (44_diff_ops.md). -/

namespace Sys2Proof.Machine

open Sys2Proof

/-- DIFF (R231). -/
def execDiff (drF dgF dbF : BitVec 2) (s : State) : Host.Outcome State Fault Refusal :=
  .next (finishOp .diff (setPx (addPixel s.px (diffDelta drF) (diffDelta dgF) (diffDelta dbF)) s))

/-- LUMA (R232). -/
def execLuma (dgF : BitVec 6) (drdgF dbdgF : BitVec 4) (s : State) : Host.Outcome State Fault Refusal :=
  .next (finishOp .luma
    (setPx (addPixel s.px (lumaOther dgF drdgF) (lumaGreen dgF) (lumaOther dgF dbdgF)) s))

end Sys2Proof.Machine
end

