-- ==== Sys2Proof/Machine/Index.lean ====
section
/-! DEFINITION. The index op (43_index_op.md). -/

namespace Sys2Proof.Machine

open Sys2Proof

/-- INDEX (R210): the cache entry verbatim; it is read before this op's own cache write (R332). -/
def execIndex (idx : BitVec 6) (s : State) : Host.Outcome State Fault Refusal :=
  .next (finishOp .index (setPx (cacheRead s idx) s))

end Sys2Proof.Machine
end

