-- ==== Sys2Proof/Machine/Literal.lean ====
section
/-! DEFINITION. The literal ops (42_literal_ops.md). -/

namespace Sys2Proof.Machine

open Sys2Proof

/-- RGBA (R190): all four channels are replaced. -/
def execRgba (r g b a : Byte) (s : State) : Host.Outcome State Fault Refusal :=
  .next (finishOp .rgba (setPx { r := r, g := g, b := b, a := a } s))

/-- RGB (R191): alpha keeps the previous pixel's value. -/
def execRgb (r g b : Byte) (s : State) : Host.Outcome State Fault Refusal :=
  .next (finishOp .rgb (setPx { r := r, g := g, b := b, a := s.px.a } s))

end Sys2Proof.Machine
end

