-- ==== Sys2Proof/Machine/Run.lean ====
section
/-! DEFINITION. The run op (45_run_op.md) and run consumption (41_pixel_loop.md R161). -/

namespace Sys2Proof.Machine

open Sys2Proof

/-- RUN (R260): the counter takes the 6-bit field; `px` is kept. -/
def execRun (rlF : BitVec 6) (s : State) : Host.Outcome State Fault Refusal :=
  .next (finishOp .run (setRun rlF s))

/-- Run consumption (R161): `run <- run - 1`, then `px` is written out and counted. -/
def consumeRun (s : State) : State := emitPixel (setRun (s.run - 1#_) s)

end Sys2Proof.Machine
end

