-- ==== Sys2Proof/Machine/Dispatch.lean ====
section
/-! DEFINITION. The meaning of every instruction: one arm per constructor (41_pixel_loop.md R163). -/

namespace Sys2Proof.Machine

open Sys2Proof

def exec (i : Instr) (s : State) : Host.Outcome State Fault Refusal :=
  match i with
  | .rgba r g b a => Sys2Proof.Machine.execRgba r g b a s
  | .rgb r g b => Sys2Proof.Machine.execRgb r g b s
  | .index idx => Sys2Proof.Machine.execIndex idx s
  | .diff drF dgF dbF => Sys2Proof.Machine.execDiff drF dgF dbF s
  | .luma dgF drdgF dbdgF => Sys2Proof.Machine.execLuma dgF drdgF dbdgF s
  | .run rlF => Sys2Proof.Machine.execRun rlF s

end Sys2Proof.Machine
end

