-- ==== Sys2Proof/Machine/Validate.lean ====
section
/-! DEFINITION. The header validator, transition T_VALIDATE (40_header_validator.md). -/

namespace Sys2Proof.Machine

open Sys2Proof

/-- The fields of a header that passed (R101). -/
structure Header where
  w : BitVec 32
  h : BitVec 32
  c : Byte
  cs : Byte
  deriving DecidableEq, Repr

/-- The magic, ASCII `qoif` (R101). -/
def magicBytes : List Byte := [0x71#8, 0x6F#8, 0x69#8, 0x66#8]

/-- The checks after the magic, in R130's order (R133 to R137): width, height, area, channels, colorspace.
The area is the exact product (R135). -/
def checkDims (ceiling : Nat) (w h : BitVec 32) : Option HeaderError :=
  if w = 0#32 then some .illegalWidth
  else if h = 0#32 then some .illegalHeight
  else if ceiling < w.toNat * h.toNat then some .imageTooLarge
  else none

/-- The channel byte is 3 or 4 (R136). -/
def checkChannels (c : Byte) : Option HeaderError :=
  if c ≠ 3#8 ∧ c ≠ 4#8 then some .illegalChannels else none

/-- Bits 7..4 of the colorspace byte are 0 (R137). -/
def checkColorspace (cs : Byte) : Option HeaderError :=
  if cs.extractLsb' 4 4 ≠ 0#4 then some .illegalColorspace else none

/-- The last check: read `In(13)` and test the colorspace byte (R137). -/
def verdictColorspace (s : State) (w h : BitVec 32) (c : Byte) : Except Fault (Except HeaderError Header) :=
  match readIn s 13 with
  | .error f => .error f
  | .ok cs =>
    match checkColorspace cs with
    | some e => .ok (.error e)
    | none => .ok (.ok { w := w, h := h, c := c, cs := cs })

/-- Read `In(12)` and test the channel byte (R136), then the colorspace. -/
def verdictChannels (s : State) (w h : BitVec 32) : Except Fault (Except HeaderError Header) :=
  match readIn s 12 with
  | .error f => .error f
  | .ok c =>
    match checkChannels c with
    | some e => .ok (.error e)
    | none => verdictColorspace s w h c

/-- Read width and height and test them and their area (R133 to R135), then the channels. -/
def verdictDims (s : State) : Except Fault (Except HeaderError Header) :=
  match readU32be s 4 with
  | .error f => .error f
  | .ok w =>
    match readU32be s 8 with
    | .error f => .error f
    | .ok h =>
      match checkDims Config.pixelCeiling w h with
      | some e => .ok (.error e)
      | none => verdictChannels s w h

/-- The seven checks in R130's order, each header byte read where the rule reads it: the verdict is the
first failing check, or the header. First the length (R131) and the magic (R132). -/
def headerVerdict (s : State) : Except Fault (Except HeaderError Header) :=
  if s.len < Config.minLen then .ok (.error .tooShort)
  else
    match readInBytes s 0 4 with
    | .error f => .error f
    | .ok magic => if magic = magicBytes then verdictDims s else .ok (.error .badMagic)

/-- The output channel count (R139). -/
def selectOutCh (s : State) (c : Byte) : BitVec 3 :=
  if s.reqEn = false then c.extractLsb' 0 3 else if s.req4 = true then 4#3 else 3#3

/-- What a T_VALIDATE that succeeds writes (R138). -/
def startDecode (hd : Header) (s : State) : State :=
  { s with
    hdrW := hd.w
    hdrH := hd.h
    srcCh := hd.c.extractLsb' 0 3
    cs := hd.cs.extractLsb' 0 4
    outCh := selectOutCh s hd.c
    total := BitVec.ofNat _ (hd.w.toNat * hd.h.toNat)
    px := startPixel
    run := 0#_
    cur := Config.hdrLen
    pix := 0#_
    cache := Vector.replicate _ zeroPixel
    fsm := .decode }

/-- T_VALIDATE (R130): the error entry, or the start of the decode. -/
def tValidate (s : State) : Host.Outcome State Fault Refusal :=
  match headerVerdict s with
  | .error f => .fault f
  | .ok (.error e) => .next (raiseErr e s)
  | .ok (.ok hd) => .next (startDecode hd s)

end Sys2Proof.Machine
end

