-- ==== Sys2Proof/Machine/Pixel.lean ====
section
/-! DEFINITION. Transition T_PIXEL (41_pixel_loop.md): fetching a chunk, the three branches; and the choice of the
transition a step takes (10_state.md R30). -/

namespace Sys2Proof.Machine

open Sys2Proof

/-- The bytes of the chunk at the read cursor: the op byte, then the operand bytes its op needs, in
increasing order and with no further test (R162, R164). -/
def fetchChunk (s : State) : Except Fault (List Byte) :=
  match readIn s s.cur with
  | .error f => .error f
  | .ok b0 =>
    match readInBytes s (s.cur + 1) (clen (opOf b0) - 1) with
    | .error f => .error f
    | .ok bs => .ok (b0 :: bs)

/-- Op fetch and dispatch (R162, R163). -/
def fetchExec (s : State) : Host.Outcome State Fault Refusal :=
  match fetchChunk s with
  | .error f => .fault f
  | .ok bytes =>
    match decode bytes with
    | .ok (i, _) => exec i s
    | .error e => .refused (.undecodable e)

/-- T_PIXEL (R160). While `out_ready` is low the pixel write is not accepted and the transition does
not end: the step changes nothing (R336; log 7). -/
def tPixel (s : State) : Host.Outcome State Fault Refusal :=
  if s.pins.outReady = false then .next s
  else if 0 < s.run.toNat then .next (consumeRun s)
  else if s.cur < padStart s then fetchExec s
  else .next (emitPixel s)

/-- The transition that is enabled (R30): T_RESET takes precedence; `start` is ignored while busy. -/
def transition (s : State) : Host.Outcome State Fault Refusal :=
  if s.pins.rst then .next (tReset s)
  else match s.fsm with
    | .idle => if s.pins.start then .next (tStart s) else .next (tHold s)
    | .done => if s.pins.start then .next (tStart s) else .next (tHold s)
    | .error => if s.pins.start then .next (tStart s) else .next (tHold s)
    | .validate => tValidate s
    | .decode => tPixel s

/-- Where the bytes of `withFetchWord` go: the first offset of the chunk region. -/
def placeChunk (bytes : List Byte) (s : State) : State :=
  { s with
    pins := { s.pins with rst := false, outReady := true }
    fsm := .decode
    run := 0#_
    cur := Config.hdrLen
    len := Config.hdrLen + bytes.length + Config.padLen
    inMem := memWriteBytes s.inMem Config.hdrLen bytes }

end Sys2Proof.Machine
end

