-- ==== Sys2Proof/Machine/Step.lean ====
section
/-! DEFINITION. One step of the machine, and the state whose next step fetches a given instruction. -/

namespace Sys2Proof.Machine

open Sys2Proof

/-- One architectural transition (00_scope.md R8, 10_state.md R30). -/
def step (s : State) : Host.Outcome State Fault Refusal := transition s

/-- `s` with the instruction whose bits are `w` at the read cursor of a decode under way, so that the
next step is the T_PIXEL that reads it (log 3). -/
def State.withFetchWord (s : State) (nbits w : Nat) : State := placeChunk (tableBytes nbits w) s

end Sys2Proof.Machine
end

