-- ==== Sys2Proof/Machine/Flags.lean ====
section
/-! DEFINITION. The status outputs S0 to S7 (10_state.md R44, R45). The block has no condition codes: the three flags
are functions of `fsm`, and no op writes one. -/

namespace Sys2Proof.Machine

open Sys2Proof

/-- S0 (R44). -/
def busy (s : State) : Bool := decide (s.fsm = .validate ∨ s.fsm = .decode)

/-- S1 (R44). -/
def done (s : State) : Bool := decide (s.fsm = .done)

/-- S2 (R44). -/
def error (s : State) : Bool := decide (s.fsm = .error)

/-- The status outputs, as the host reads them (R45). -/
structure Status where
  busy : Bool
  done : Bool
  error : Bool
  errCode : BitVec 3
  imgWidth : BitVec 32
  imgHeight : BitVec 32
  imgChannels : BitVec 3
  imgColorspace : BitVec 4
  deriving DecidableEq, Repr

/-- S0 to S7 of a state (R45). -/
def status (s : State) : Status where
  busy := busy s
  done := done s
  error := error s
  errCode := s.errCode
  imgWidth := s.hdrW
  imgHeight := s.hdrH
  imgChannels := s.outCh
  imgColorspace := s.cs

end Sys2Proof.Machine
end

