-- ==== Sys2Proof/Machine/HostPort.lean ====
section
/-! DEFINITION. What the host can do between two steps (70_reset_and_hazards.md R323, R324): drive the inputs, place a
file in IN, write and read OUT. The duties it must keep are checked: a move that breaks one is refused by name. -/

namespace Sys2Proof.Machine

open Sys2Proof

/-- One move of the host. -/
inductive HostMove where
  /-- Drive the input levels; always allowed (R324), but `in_len` has IN_LEN_W bits (U12). -/
  | drive (p : HostPins)
  /-- Place a whole file in IN, at offset 0 upward (R323 step 2). DESIGN CHOICE: bytes placed earlier at offsets above
  the file are placed no more, on which the spec is silent (log 15). -/
  | placeIn (file : List Byte)
  /-- Write one byte of OUT. -/
  | writeOut (a : Nat) (v : Byte)
  deriving DecidableEq, Repr

/-- Does the byte of OUT at `a` belong to the image of the decode under way, the offsets below `total * out_ch`
(R324, U7)? In VALIDATE the image is the one its header gives; a header that fails, or that the host never answers
in full (log 10), has none. -/
def imageMayHold (s : State) (a : Nat) : Bool :=
  match s.fsm with
  | .validate =>
    match headerVerdict s with
    | .ok (.ok hd) => decide (a < (startDecode hd s).total.toNat * (startDecode hd s).outCh.toNat)
    | .ok (.error _) => false
    | .error _ => false
  | .decode => decide (a < s.total.toNat * s.outCh.toNat)
  | .idle => false
  | .done => false
  | .error => false

/-- A host move, refused where it breaks a duty of R324 (U6, U7) or cannot be presented at the port (U12).
A file placed replaces the one before as a whole (DESIGN CHOICE, log 15). A byte of OUT that the host writes is known
from then on. -/
def hostMove (m : HostMove) (s : State) : Host.Outcome State Fault Refusal :=
  match m with
  | .drive p =>
    if 2 ^ s.inLenW ≤ p.inLen then .refused .inputTooLong
    else .next { s with pins := p }
  | .placeIn file =>
    if busy s then .refused .inputChangedWhileBusy
    else if 2 ^ s.inLenW ≤ file.length then .refused .inputTooLong
    else .next { s with inMem := memOfBytes 0 file }
  | .writeOut a v =>
    if imageMayHold s a then .refused .outputWrittenWhileBusy
    else .next { s with outMem := memWrite s.outMem a v, outOpen := offsetsRemove a (a + 1) s.outOpen }

/-- What a host read of OUT at `a` may be relied on to return: in DONE the image (R83 d); outside busy
any other byte that is known, and that no abandoned decode left open (R284, R321, U5). While busy
nothing is promised (R84, U3, U4). -/
def outPromised (s : State) (a : Nat) : Option Byte :=
  if busy s then none
  else if done s ∧ a < s.total.toNat * s.outCh.toNat then memRead s.outMem a
  else if offsetIn s.outOpen a then none
  else memRead s.outMem a

/-- A host read of OUT: the promised byte, or a free value (R84 "model: a draw"). -/
def hostReadOut (a : Nat) (s : State) : Byte × State :=
  match outPromised s a with
  | some b => (b, s)
  | none => (Config.freeValue 8 s.draws, { s with draws := s.draws + 1 })

end Sys2Proof.Machine
end

