-- ==== Sys2Proof/Safety.lean ====
section
/-! DEFINITION. The terms the claims use: the invariants of the machine, what ends a T_PIXEL, when a header check
fails, and runs in which the host and the block take turns. -/

namespace Sys2Proof.Safety

open Sys2Proof Sys2Proof.Machine

/-! ### Invariants -/

/-- Both memories are in canonical form. -/
def MemInv (s : State) : Prop := memWf s.inMem ∧ memWf s.outMem

/-- The run counter is 0..61 from the start of a decode to its end (R262). -/
def RunInv (s : State) : Prop := s.fsm = .decode ∨ s.fsm = .done → s.run.toNat ≤ 61

/-- `len` and `cur` are numbers of IN_LEN_W bits (R33, R37); in a decode `len >= 22` and the cursor is 14..len-4
(R33, R72). -/
def CursorInv (s : State) : Prop :=
  s.len < 2 ^ s.inLenW ∧ s.cur < 2 ^ s.inLenW ∧
  (s.fsm = .decode ∨ s.fsm = .done → 22 ≤ s.len ∧ 14 ≤ s.cur ∧ s.cur + 4 ≤ s.len)

/-- In DECODE each cache entry is zero, or a pixel whose hash is its slot (R43). -/
def CacheInv (s : State) : Prop :=
  s.fsm = .decode → ∀ k (hk : k < 64),
    s.cache[k] = { r := 0#8, g := 0#8, b := 0#8, a := 0#8 } ∨ (pixelHash s.cache[k]).toNat = k

/-- In DECODE and DONE the header registers are those of a header that passed (R38), and the pixel counter is
below `total` in DECODE and `total` in DONE (R36, R168). -/
def CountInv (s : State) : Prop :=
  (s.fsm = .decode ∨ s.fsm = .done →
    s.total.toNat = s.hdrW.toNat * s.hdrH.toNat ∧ 1 ≤ s.total.toNat ∧ s.total.toNat ≤ Config.pixelCeiling ∧
    (s.srcCh = 3#3 ∨ s.srcCh = 4#3) ∧ (s.outCh = 3#3 ∨ s.outCh = 4#3)) ∧
  (s.fsm = .decode → s.pix.toNat < s.total.toNat) ∧
  (s.fsm = .done → s.pix = s.total)

/-- `err_code` is nonzero exactly in ERROR, and the result registers are 0 outside DECODE and DONE (R45, R280). -/
def ResultInv (s : State) : Prop :=
  (s.fsm = .error ↔ s.errCode ≠ 0#3) ∧
  (s.fsm = .idle ∨ s.fsm = .validate ∨ s.fsm = .error →
    s.hdrW = 0#32 ∧ s.hdrH = 0#32 ∧ s.outCh = 0#3 ∧ s.cs = 0#4)

/-- Every byte of the pixels emitted so far is in OUT (R80, R83). -/
def ImageInv (s : State) : Prop :=
  s.fsm = .decode ∨ s.fsm = .done → ∀ a, a < s.pix.toNat * s.outCh.toNat → (memRead s.outMem a).isSome = true

/-- All of them. -/
def MachineInv (s : State) : Prop :=
  MemInv s ∧ RunInv s ∧ CursorInv s ∧ CacheInv s ∧ CountInv s ∧ ResultInv s ∧ ImageInv s

/-! ### The input -/

/-- The host has placed the whole input: every offset below `len` (R70). -/
def inputPlaced (s : State) : Prop := ∀ a, a < s.len → (memRead s.inMem a).isSome = true

/-- The host has placed the header, offsets 0 to 13. -/
def headerPlaced (s : State) : Prop := ∀ a, a < 14 → (memRead s.inMem a).isSome = true

/-- The byte at offset `a` of IN, as a number; 0 where none is placed. -/
def inByte (s : State) (a : Nat) : Nat :=
  match memRead s.inMem a with
  | some b => b.toNat
  | none => 0

/-- The big-endian 32-bit number at offset `a` of IN (R77). -/
def inWord (s : State) (a : Nat) : Nat :=
  inByte s a * 16777216 + inByte s (a + 1) * 65536 + inByte s (a + 2) * 256 + inByte s (a + 3)

/-- The condition under which each header check fails (R131 to R137). -/
def headerFails (s : State) : HeaderError → Prop
  | .tooShort => s.len < 22
  | .badMagic => ¬ (inByte s 0 = 0x71 ∧ inByte s 1 = 0x6F ∧ inByte s 2 = 0x69 ∧ inByte s 3 = 0x66)
  | .illegalWidth => inWord s 4 = 0
  | .illegalHeight => inWord s 8 = 0
  | .imageTooLarge => Config.pixelCeiling < inWord s 4 * inWord s 8
  | .illegalChannels => inByte s 12 ≠ 3 ∧ inByte s 12 ≠ 4
  | .illegalColorspace => 16 ≤ inByte s 13

/-- `e` is the failing check that comes first in the order of the codes (R282). -/
def firstFailure (s : State) (e : HeaderError) : Prop :=
  headerFails s e ∧ ∀ e', (errorCode e').toNat < (errorCode e).toNat → ¬ headerFails s e'

/-! ### What a T_PIXEL does at its end -/

/-- The offset at which the current pixel is stored: the address on the output port (R76). -/
def outAddress (s : State) : Nat := (portWrite s).addr.toNat

/-- How many bytes a pixel write stores: 4 iff `out_ch = 4` (R169). -/
def pixelBytes (s : State) : Nat := if s.outCh = 4#3 then 4 else 3

/-- From `s` to `t` one pixel, the `px` of `t`, is written and counted: its bytes in OUT and every other byte of
OUT as before (R169), `pix` one more, and DONE exactly when that is `total` (R168). -/
def emits (s t : State) : Prop :=
  t.pix = s.pix + 1#_ ∧
  t.fsm = (if s.pix + 1#_ = s.total then .done else s.fsm) ∧
  memRead t.outMem (outAddress s) = some t.px.r ∧
  memRead t.outMem (outAddress s + 1) = some t.px.g ∧
  memRead t.outMem (outAddress s + 2) = some t.px.b ∧
  (s.outCh = 4#3 → memRead t.outMem (outAddress s + 3) = some t.px.a) ∧
  ∀ x, x < outAddress s ∨ outAddress s + pixelBytes s ≤ x → memRead t.outMem x = memRead s.outMem x

/-- From `s` to `t` the cache takes the `px` of `t` at the slot of its hash, and nothing else (R167). -/
def cachesPixel (s t : State) : Prop :=
  ∀ k (hk : k < 64), t.cache[k] = if k = (pixelHash t.px).toNat then t.px else s.cache[k]

/-- The end of a T_PIXEL that reads a chunk of `n` bytes (R160). -/
def chunkEnds (n : Nat) (s t : State) : Prop :=
  t.cur = (s.cur + n) % 2 ^ s.inLenW ∧ cachesPixel s t ∧ emits s t

/-- The step from `s` reads an op byte (R162). -/
def readsChunk (s : State) : Prop := s.run.toNat = 0 ∧ s.cur + 8 < s.len

/-- `s` is a decode that the host lets run: DECODE, no reset, the output port accepted. -/
def decoding (s : State) : Prop := s.fsm = .decode ∧ s.pins.rst = false ∧ s.pins.outReady = true

/-! ### Comparing two steps -/

/-- An outcome with its next state changed. -/
def mapNext (f : State → State) : Host.Outcome State Fault Refusal → Host.Outcome State Fault Refusal
  | .next s => .next (f s)
  | .fault r => .fault r
  | .refused r => .refused r

/-- Two outcomes stop for the same reason, or go on to states that `rel` relates. -/
def outcomesRelated (rel : State → State → Prop) :
    Host.Outcome State Fault Refusal → Host.Outcome State Fault Refusal → Prop
  | .next s, .next t => rel s t
  | .fault q, .fault r => q = r
  | .refused q, .refused r => q = r
  | _, _ => False

/-- `t` is `s` but for what was requested of the output, and for the output itself (R172). -/
def onlyOutputDiffers (s t : State) : Prop :=
  t = { s with
    pins := { s.pins with reqChEn := t.pins.reqChEn, reqCh4 := t.pins.reqCh4 }
    reqEn := t.reqEn
    req4 := t.req4
    outCh := t.outCh
    outMem := t.outMem
    outOpen := t.outOpen }

/-- From `s` to `t` by steps of one decode, stalled or not, none of which caches a pixel at slot `h` (R211). -/
inductive SlotUntouched (h : BitVec 6) : State → State → Prop where
  | refl (s : State) : SlotUntouched h s s
  | step (s t u : State) (hs : s.fsm = .decode) (hr : s.pins.rst = false) (ht : Machine.step s = .next t)
      (hne : readsChunk s → s.pins.outReady = true → pixelHash t.px ≠ h) (rest : SlotUntouched h t u) : SlotUntouched h s u

/-! ### Runs of the host and the block -/

/-- One turn: the block's step, or a move of the host. -/
inductive Turn where
  | block
  | host (m : HostMove)
  deriving DecidableEq, Repr

/-- The outcome of one turn. -/
def takeTurn (s : State) : Turn → Host.Outcome State Fault Refusal
  | .block => Machine.step s
  | .host m => hostMove m s

/-- The outcome of a list of turns, stopping at the first fault or refusal. -/
def takeTurns (s : State) : List Turn → Host.Outcome State Fault Refusal
  | [] => .next s
  | e :: es =>
    match takeTurn s e with
    | .next t => takeTurns t es
    | .fault r => .fault r
    | .refused r => .refused r

end Sys2Proof.Safety
end

