-- ==== Sys2Proof/Certificates/Slice0/Obligations.lean ====
section
/-! DEFINITION. The statements for the provers. Each docstring cites the rules of spec/ that it formalises. -/

open Sys2Proof Sys2Proof.Machine Sys2Proof.Safety

/-! ### Reset, start, hold -/

/-- R50, R320: the values the spec gives the state right after reset, and the status outputs that follow. -/
def Obligations.ResetHasTheStatedValues : Prop :=
  State.reset.fsm = .idle ∧ State.reset.errCode = 0#3 ∧ State.reset.hdrW = 0#32 ∧ State.reset.hdrH = 0#32 ∧
  State.reset.outCh = 0#3 ∧ State.reset.cs = 0#4 ∧ busy State.reset = false ∧ done State.reset = false ∧
  error State.reset = false

/-- R320: with `rst` high, from any state and whatever `start` is, the step goes to IDLE with the result
registers 0 and S0 to S7 all 0; IN, OUT and the host's levels stay. -/
def Obligations.ResetWinsFromEveryState : Prop :=
  ∀ s : State, s.pins.rst = true →
    ∃ t, step s = .next t ∧ t.fsm = .idle ∧ t.errCode = 0#3 ∧ t.hdrW = 0#32 ∧ t.hdrH = 0#32 ∧ t.outCh = 0#3 ∧
      t.cs = 0#4 ∧ t.inMem = s.inMem ∧ t.outMem = s.outMem ∧ t.pins = s.pins ∧
      status t = { busy := false, done := false, error := false, errCode := 0#3, imgWidth := 0#32,
                   imgHeight := 0#32, imgChannels := 0#3, imgColorspace := 0#4 }

/-- R321: a reset during DECODE leaves the bytes of OUT, does not raise `done`, and leaves the host no byte of
the image to rely on. -/
def Obligations.ResetAbandonsTheDecode : Prop :=
  ∀ s : State, s.pins.rst = true → s.fsm = .decode →
    ∃ t, step s = .next t ∧ t.outMem = s.outMem ∧ t.fsm = .idle ∧ done t = false ∧
      ∀ a, a < s.total.toNat * s.outCh.toNat → outPromised t a = none

/-- R31: T_START latches the inputs, clears the result registers and enters VALIDATE, with both memories and all
else unchanged (but the model's own field `outOpen`, of which nothing is said); and while the block is busy a change of `in_len`,
`req_ch_en`, `req_ch4` (or of `start`) changes nothing in what a step does. -/
def Obligations.StartLatchesTheInputs : Prop :=
  (∀ s : State, s.pins.rst = false → s.pins.start = true →
    (s.fsm = .idle ∨ s.fsm = .done ∨ s.fsm = .error) →
    ∃ t, step s = .next t ∧ t = { s with
      len := s.pins.inLen % 2 ^ s.inLenW, reqEn := s.pins.reqChEn, req4 := s.pins.reqCh4, errCode := 0#3, hdrW := 0#32,
      hdrH := 0#32, outCh := 0#3, cs := 0#4, fsm := .validate, outOpen := t.outOpen }) ∧
  (∀ (s : State) (p : HostPins), busy s = true → p.rst = s.pins.rst → p.outReady = s.pins.outReady →
    step { s with pins := p } = mapNext (fun t => { t with pins := p }) (step s))

/-- R32: without `start` and `rst`, IDLE, DONE and ERROR hold every register and both memories, for any number
of steps. -/
def Obligations.HoldIsStable : Prop :=
  ∀ (s : State) (k : Nat), s.pins.rst = false → s.pins.start = false →
    (s.fsm = .idle ∨ s.fsm = .done ∨ s.fsm = .error) → core.run k s = .next s

/-- R285: ERROR holds until `start` or `rst`; `start` begins a new decode with `err_code` cleared, `rst` goes to
IDLE, nothing else leaves ERROR, and nothing raises in ERROR. -/
def Obligations.ErrorIsLeftByStartOrResetOnly : Prop :=
  ∀ s t : State, s.fsm = .error → step s = .next t →
    (s.pins.rst = false → s.pins.start = false → t = s) ∧
    (s.pins.rst = false → s.pins.start = true → t.fsm = .validate ∧ t.errCode = 0#3) ∧
    (s.pins.rst = true → t.fsm = .idle ∧ t.errCode = 0#3) ∧
    (t.fsm ≠ .error → s.pins.start = true ∨ s.pins.rst = true) ∧
    (t.fsm = .error → t.errCode = s.errCode)

/-- R286: without `rst`, a busy block goes to no state but the ones on the way to DONE or ERROR, and `start` is
ignored. -/
def Obligations.OnlyResetStopsADecodeEarly : Prop :=
  (∀ s t : State, s.pins.rst = false → step s = .next t →
    (s.fsm = .validate → t.fsm = .decode ∨ t.fsm = .error) ∧
    (s.fsm = .decode → t.fsm = .decode ∨ t.fsm = .done)) ∧
  (∀ (s : State) (b : Bool), busy s = true →
    step { s with pins := { s.pins with start := b } } =
      mapNext (fun t => { t with pins := { s.pins with start := b } }) (step s))

/-- R44: the three flags are functions of `fsm`, at most one is 1, and all are 0 only in IDLE. -/
def Obligations.StatusFlagsFollowTheControlState : Prop :=
  ∀ s : State,
    (busy s = true ↔ s.fsm = .validate ∨ s.fsm = .decode) ∧ (done s = true ↔ s.fsm = .done) ∧
    (error s = true ↔ s.fsm = .error) ∧
    ¬ (busy s = true ∧ done s = true) ∧ ¬ (busy s = true ∧ error s = true) ∧ ¬ (done s = true ∧ error s = true) ∧
    (busy s = false ∧ done s = false ∧ error s = false ↔ s.fsm = .idle)

/-! ### The header validator -/

/-- R131: a length below 22 raises code 1 whatever IN holds, and from 22 on the validator never does. -/
def Obligations.ShortInputIsTooShort : Prop :=
  ∀ s : State, s.fsm = .validate → s.pins.rst = false →
    (s.len < 22 → step s = .next { s with errCode := 1#3, fsm := .error }) ∧
    (22 ≤ s.len → ∀ t, step s = .next t → ¬ (t.fsm = .error ∧ t.errCode = 1#3))

/-- R282: on a placed header the validator raises the code of the first failing check, and only that. -/
def Obligations.VerdictIsTheFirstFailingCheck : Prop :=
  ∀ (s : State) (e : HeaderError), s.fsm = .validate → s.pins.rst = false → headerPlaced s →
    ((∃ t, step s = .next t ∧ t.fsm = .error ∧ t.errCode = errorCode e) ↔ firstFailure s e)

/-- R281, R280: the error entry writes `err_code`, one of 1 to 7, and `fsm`, and nothing else; it happens only in
T_VALIDATE; the status outputs then show the error and no image. -/
def Obligations.ErrorEntryWritesOnlyTheCode : Prop :=
  (∀ s t : State, s.fsm = .validate → step s = .next t → t.fsm = .error →
    (∃ e, t = { s with errCode := errorCode e, fsm := .error }) ∧ t.errCode ≠ 0#3 ∧
    busy t = false ∧ done t = false ∧ error t = true ∧
    (ResultInv s → t.hdrW = 0#32 ∧ t.hdrH = 0#32 ∧ t.outCh = 0#3 ∧ t.cs = 0#4)) ∧
  (∀ s t : State, step s = .next t → t.fsm = .error → s.fsm ≠ .error → s.fsm = .validate ∧ s.pins.rst = false)

/-- R138 (with R139 for `out_ch`): a header that passes all seven checks starts the decode. -/
def Obligations.GoodHeaderStartsTheDecode : Prop :=
  ∀ s : State, s.fsm = .validate → s.pins.rst = false → headerPlaced s → (∀ e, ¬ headerFails s e) →
    ∃ t, step s = .next t ∧
      t.hdrW.toNat = inWord s 4 ∧ t.hdrH.toNat = inWord s 8 ∧ t.srcCh.toNat = inByte s 12 ∧
      t.cs.toNat = inByte s 13 % 16 ∧
      t.outCh.toNat = (if s.reqEn = false then inByte s 12 else if s.req4 = true then 4 else 3) ∧
      t.total.toNat = inWord s 4 * inWord s 8 ∧ 1 ≤ t.total.toNat ∧
      t.px = { r := 0#8, g := 0#8, b := 0#8, a := 255#8 } ∧ t.run = 0#6 ∧ t.cur = 14 ∧ t.pix = 0#_ ∧
      (∀ k (hk : k < 64), t.cache[k] = { r := 0#8, g := 0#8, b := 0#8, a := 0#8 }) ∧
      t.fsm = .decode ∧ busy t = true ∧
      t = { s with hdrW := t.hdrW, hdrH := t.hdrH, srcCh := t.srcCh, cs := t.cs, outCh := t.outCh,
                   total := t.total, px := t.px, run := t.run, cur := t.cur, pix := t.pix, cache := t.cache,
                   fsm := t.fsm }

/-- R140, R142: T_VALIDATE depends on no byte of IN but the header's, so neither the chunks nor the padding's
content decide its verdict. -/
def Obligations.VerdictIgnoresChunksAndPadding : Prop :=
  ∀ (s : State) (m : List Host.Cell), s.fsm = .validate →
    (∀ a, a < 14 → memRead m a = memRead s.inMem a) →
    step { s with inMem := m } = mapNext (fun t => { t with inMem := m }) (step s)

/-- R135: the area check compares the exact product, whatever the ceiling is set to (R7). -/
def Obligations.AreaCheckIsExact : Prop :=
  ∀ (ceiling : Nat) (w h : BitVec 32),
    checkDims ceiling w h = some .imageTooLarge ↔
      w.toNat ≠ 0 ∧ h.toNat ≠ 0 ∧ ceiling < w.toNat * h.toNat

/-! ### The pixel loop -/

/-- R162, R163: where the bytes at the read cursor decode to an instruction, the step is `exec` of it. Nothing is
added around `exec`: its meaning is the whole T_PIXEL of a chunk. -/
def Obligations.StepRunsTheDecodedInstruction : Prop :=
  ∀ (s : State) (bytes rest : List Byte) (i : Instr), decoding s → readsChunk s →
    decode bytes = .ok (i, rest) →
    (∀ k (hk : k < bytes.length), memRead s.inMem (s.cur + k) = some bytes[k]) →
    i.wf = true ∧ step s = exec i s

/-- R161: a pending run is consumed first: one less to run, `px` written out and counted, no byte of IN read, and
the cursor, the pixel and the cache as they were. -/
def Obligations.PendingRunRepeatsThePixel : Prop :=
  ∀ s : State, decoding s → 0 < s.run.toNat →
    ∃ t, step s = .next t ∧ t.run.toNat + 1 = s.run.toNat ∧ emits s t ∧
      t = { s with run := t.run, outMem := t.outMem, pix := t.pix, fsm := t.fsm } ∧
      ∀ m, step { s with inMem := m } = .next { t with inMem := m }

/-- R166: with no run pending and no chunk byte left, `px` is written out and counted and nothing else changes, so
this lasts; no byte of IN is read. -/
def Obligations.ExhaustedStreamRepeatsThePixel : Prop :=
  ∀ s : State, decoding s → s.run.toNat = 0 → (s.len : Int) - 8 ≤ (s.cur : Int) →
    ∃ t, step s = .next t ∧ emits s t ∧
      t = { s with outMem := t.outMem, pix := t.pix, fsm := t.fsm } ∧
      ∀ m, step { s with inMem := m } = .next { t with inMem := m }

/-- R167: a T_PIXEL that reads an op byte, whatever the op, caches the pixel at the slot of its hash; no other
T_PIXEL writes the cache. -/
def Obligations.OnlyChunksWriteTheCache : Prop :=
  ∀ s t : State, decoding s → step s = .next t →
    (readsChunk s → cachesPixel s t) ∧ (¬ readsChunk s → t.cache = s.cache)

/-- R165, R33: the cursor advances by the length of the chunk read, and stays in every other T_PIXEL. -/
def Obligations.CursorAdvancesByTheChunk : Prop :=
  ∀ (s t : State) (b0 : Byte), decoding s → CursorInv s → step s = .next t →
    (readsChunk s → memRead s.inMem s.cur = some b0 → t.cur = s.cur + clen (opOf b0)) ∧
    (¬ readsChunk s → t.cur = s.cur)

/-- R171: no T_PIXEL raises an error: `err_code` stays, and stays 0 where the status is legal (`ResultInv`), `fsm` goes
to DECODE or DONE. Two clauses are the model's choice and no rule of the spec: what R324 and U9 call stuck is a fault
where a byte of IN is never answered, the one thing that stops a step here (log 4), and a step that changes nothing
where `out_ready` is low (log 7). -/
def Obligations.DecodeRaisesNoError : Prop :=
  ∀ s : State, s.fsm = .decode → s.pins.rst = false →
    (∃ t, step s = .next t ∧ t.errCode = s.errCode ∧ (ResultInv s → t.errCode = 0#3) ∧
      (t.fsm = .decode ∨ t.fsm = .done)) ∨
    (∃ a, step s = .fault (.inputUnanswered a) ∧ memRead s.inMem a = none)

/-- R336 as the model has it (log 7, DESIGN CHOICE): while `out_ready` is low a step in DECODE changes nothing. -/
def Obligations.StalledOutputHoldsTheDecode : Prop :=
  ∀ s : State, s.fsm = .decode → s.pins.rst = false → s.pins.outReady = false → step s = .next s

/-! ### The ops -/

/-- R190: RGBA, its bytes and its whole effect; and no other op but INDEX changes alpha. -/
def Obligations.RgbaReplacesAllChannels : Prop :=
  (∀ (r g b a : Byte) (rest : List Byte),
    decode (0xFF#8 :: r :: g :: b :: a :: rest) = .ok (.rgba r g b a, rest)) ∧
  (∀ (r g b a : Byte) (s : State),
    ∃ t, exec (.rgba r g b a) s = .next t ∧ t.px = { r := r, g := g, b := b, a := a } ∧ t.run = s.run ∧
      chunkEnds 5 s t) ∧
  (∀ (i : Instr) (s t : State), exec i s = .next t → t.px.a ≠ s.px.a →
    (∃ r g b a, i = .rgba r g b a) ∨ (∃ idx, i = .index idx))

/-- R191: RGB, its bytes and its whole effect; alpha is the previous pixel's. -/
def Obligations.RgbKeepsAlpha : Prop :=
  (∀ (r g b : Byte) (rest : List Byte), decode (0xFE#8 :: r :: g :: b :: rest) = .ok (.rgb r g b, rest)) ∧
  (∀ (r g b : Byte) (s : State),
    ∃ t, exec (.rgb r g b) s = .next t ∧ t.px = { r := r, g := g, b := b, a := s.px.a } ∧ t.run = s.run ∧
      chunkEnds 4 s t)

/-- R210: INDEX, its byte and its whole effect: the entry as it stood before this op's own cache write; under the
cache invariant that write changes nothing, or it writes zero to slot 0. -/
def Obligations.IndexCopiesTheCacheEntry : Prop :=
  (∀ (b0 : Byte) (rest : List Byte), b0.toNat ≤ 0x3F →
    ∃ idx : BitVec 6, idx.toNat = b0.toNat ∧ decode (b0 :: rest) = .ok (.index idx, rest)) ∧
  (∀ (idx : BitVec 6) (s : State),
    ∃ t, exec (.index idx) s = .next t ∧ t.px = s.cache[idx.toNat]'idx.isLt ∧ t.run = s.run ∧ chunkEnds 1 s t ∧
      (s.fsm = .decode → CacheInv s →
        (t.px ≠ { r := 0#8, g := 0#8, b := 0#8, a := 0#8 } → pixelHash t.px = idx ∧ t.cache = s.cache) ∧
        (t.px = { r := 0#8, g := 0#8, b := 0#8, a := 0#8 } → pixelHash t.px = 0#6)))

/-- R231: DIFF, its byte and its whole effect: each of r, g, b plus its field minus 2, mod 256. -/
def Obligations.DiffAddsBiasedDeltas : Prop :=
  (∀ (b0 : Byte) (rest : List Byte), 0x40 ≤ b0.toNat → b0.toNat ≤ 0x7F →
    ∃ drF dgF dbF : BitVec 2, drF.toNat = b0.toNat / 16 % 4 ∧ dgF.toNat = b0.toNat / 4 % 4 ∧
      dbF.toNat = b0.toNat % 4 ∧ decode (b0 :: rest) = .ok (.diff drF dgF dbF, rest)) ∧
  (∀ (drF dgF dbF : BitVec 2) (s : State),
    ∃ t, exec (.diff drF dgF dbF) s = .next t ∧
      (t.px.r.toNat : Int) = ((s.px.r.toNat : Int) + drF.toNat - 2) % 256 ∧
      (t.px.g.toNat : Int) = ((s.px.g.toNat : Int) + dgF.toNat - 2) % 256 ∧
      (t.px.b.toNat : Int) = ((s.px.b.toNat : Int) + dbF.toNat - 2) % 256 ∧
      t.px.a = s.px.a ∧ t.run = s.run ∧ chunkEnds 1 s t)

/-- R232: LUMA, its bytes and its whole effect: green plus its field minus 32, red and blue plus that delta minus 8
plus a nibble, mod 256. -/
def Obligations.LumaAddsGreenRelativeDeltas : Prop :=
  (∀ (b0 b1 : Byte) (rest : List Byte), 0x80 ≤ b0.toNat → b0.toNat ≤ 0xBF →
    ∃ (dgF : BitVec 6) (rn bn : BitVec 4), dgF.toNat = b0.toNat % 64 ∧ rn.toNat = b1.toNat / 16 ∧
      bn.toNat = b1.toNat % 16 ∧ decode (b0 :: b1 :: rest) = .ok (.luma dgF rn bn, rest)) ∧
  (∀ (dgF : BitVec 6) (rn bn : BitVec 4) (s : State),
    ∃ t, exec (.luma dgF rn bn) s = .next t ∧
      (t.px.r.toNat : Int) = ((s.px.r.toNat : Int) + ((dgF.toNat : Int) - 32) - 8 + rn.toNat) % 256 ∧
      (t.px.g.toNat : Int) = ((s.px.g.toNat : Int) + ((dgF.toNat : Int) - 32)) % 256 ∧
      (t.px.b.toNat : Int) = ((s.px.b.toNat : Int) + ((dgF.toNat : Int) - 32) - 8 + bn.toNat) % 256 ∧
      t.px.a = s.px.a ∧ t.run = s.run ∧ chunkEnds 2 s t)

/-- R260: RUN, its byte and its whole effect: the counter takes the field, `px` is kept and cached again. -/
def Obligations.RunLoadsTheCounter : Prop :=
  (∀ (b0 : Byte) (rest : List Byte), 0xC0 ≤ b0.toNat → b0.toNat ≤ 0xFD →
    ∃ rlF : BitVec 6, rlF.toNat = b0.toNat - 0xC0 ∧ rlF.toNat ≤ 61 ∧ decode (b0 :: rest) = .ok (.run rlF, rest)) ∧
  (∀ (rlF : BitVec 6) (s : State),
    ∃ t, exec (.run rlF) s = .next t ∧ t.run = rlF ∧ t.px = s.px ∧ chunkEnds 1 s t)

/-- The frame of all six ops, RGBA, RGB, INDEX, DIFF, LUMA and RUN (R163, R41, R169): no register changes but
`px`, `run`, `cur`, `cache`, `pix` and `fsm`; `run` only by RUN, `px` not by RUN; every byte of OUT outside the
pixel stored reads as before; every cache slot but the one of the pixel's hash stays. -/
def Obligations.OpsLeaveAllElseUnchanged : Prop :=
  ∀ (i : Instr) (s t : State), exec i s = .next t →
    t = { s with px := t.px, run := t.run, cur := t.cur, cache := t.cache, outMem := t.outMem, pix := t.pix,
                 fsm := t.fsm } ∧
    ((∀ f, i ≠ .run f) → t.run = s.run) ∧ (∀ f, i = .run f → t.px = s.px) ∧
    (∀ x, x < outAddress s ∨ outAddress s + pixelBytes s ≤ x → memRead t.outMem x = memRead s.outMem x) ∧
    (∀ k (hk : k < 64), k ≠ (pixelHash t.px).toNat → t.cache[k] = s.cache[k]) ∧
    (t.fsm = s.fsm ∨ t.fsm = .done)

/-- R169: the pixel write stores r, g, b and, iff `out_ch` is 4, a, from `pix * out_ch` upward, and no other byte;
`px` keeps all four channels. -/
def Obligations.PixelWriteStoresTheChannels : Prop :=
  ∀ s : State, (s.outCh = 3#3 ∨ s.outCh = 4#3) →
    (writePixel s).px = s.px ∧ ∀ x, memRead (writePixel s).outMem x =
      if x = s.pix.toNat * s.outCh.toNat then some s.px.r
      else if x = s.pix.toNat * s.outCh.toNat + 1 then some s.px.g
      else if x = s.pix.toNat * s.outCh.toNat + 2 then some s.px.b
      else if s.outCh = 4#3 ∧ x = s.pix.toNat * s.outCh.toNat + 3 then some s.px.a
      else memRead s.outMem x

/-- R76: what stands on the output port for the current pixel: the address `pix * out_ch`, the lanes r, g, b, a
from the low byte up, and the byte enables. -/
def Obligations.OutputPortShowsThePixel : Prop :=
  ∀ s : State, (s.outCh = 3#3 ∨ s.outCh = 4#3) →
    (portWrite s).addr.toNat = s.pix.toNat * s.outCh.toNat ∧
    (portWrite s).wdata.toNat =
      s.px.r.toNat + 256 * s.px.g.toNat + 65536 * s.px.b.toNat + 16777216 * s.px.a.toNat ∧
    (portWrite s).be = (if s.outCh = 4#3 then 0b1111#4 else 0b0111#4)

/-- R230, R233: the three channel adders are exact mod 256, as is forming the delta mod 256 first; they do not
touch each other, and alpha passes through. -/
def Obligations.ChannelAddersWrapMod256 : Prop :=
  (∀ (ch : Byte) (d : Int),
    ((addChannel ch d).toNat : Int) = ((ch.toNat : Int) + d) % 256 ∧
    ((addChannel ch d).toNat : Int) = ((ch.toNat : Int) + d % 256) % 256) ∧
  (∀ (p : Pixel) (dr dg db : Int),
    (addPixel p dr dg db).r = addChannel p.r dr ∧ (addPixel p dr dg db).g = addChannel p.g dg ∧
    (addPixel p dr dg db).b = addChannel p.b db ∧ (addPixel p dr dg db).a = p.a)

/-- R13, R170: the hash is the weighted sum mod 64; the sum is at most 6630, reducing each product first gives the
same, and `hash(0,0,0,255) = 53`. -/
def Obligations.HashIsTheWeightedSumMod64 : Prop :=
  (∀ p : Pixel,
    (pixelHash p).toNat = (p.r.toNat * 3 + p.g.toNat * 5 + p.b.toNat * 7 + p.a.toNat * 11) % 64 ∧
    p.r.toNat * 3 + p.g.toNat * 5 + p.b.toNat * 7 + p.a.toNat * 11 ≤ 6630 ∧
    (pixelHash p).toNat = (p.r.toNat * 3 % 64 + p.g.toNat * 5 % 64 + p.b.toNat * 7 % 64 + p.a.toNat * 11 % 64) % 64) ∧
  (pixelHash { r := 0#8, g := 0#8, b := 0#8, a := 255#8 }).toNat = 53

/-- R6: `ceilLog2` is the ceiling of the logarithm that PIX_W and OUT_ADDR_W are computed with, and at the default
ceiling they are 29 and 31, wide enough for every pixel count and every offset of an image. -/
def Obligations.WidthsFollowTheCeiling : Prop :=
  (∀ n k : Nat, 1 ≤ n → (Config.ceilLog2 n ≤ k ↔ n ≤ 2 ^ k)) ∧
  Config.pixW = Config.ceilLog2 (Config.pixelCeiling + 1) ∧ Config.outAddrW = Config.ceilLog2 (4 * Config.pixelCeiling) ∧
  Config.pixW = 29 ∧ Config.outAddrW = 31

/-! ### Encoding -/

/-- R106: the op bytes each op takes; together they are all 256, so no op byte is illegal. -/
def Obligations.EveryOpByteSelectsOneOp : Prop :=
  ∀ b0 : Byte,
    (opOf b0 = .index ↔ b0.toNat ≤ 0x3F) ∧ (opOf b0 = .diff ↔ 0x40 ≤ b0.toNat ∧ b0.toNat ≤ 0x7F) ∧
    (opOf b0 = .luma ↔ 0x80 ≤ b0.toNat ∧ b0.toNat ≤ 0xBF) ∧ (opOf b0 = .run ↔ 0xC0 ≤ b0.toNat ∧ b0.toNat ≤ 0xFD) ∧
    (opOf b0 = .rgb ↔ b0.toNat = 0xFE) ∧ (opOf b0 = .rgba ↔ b0.toNat = 0xFF)

/-- R104: the op byte alone fixes the length of a chunk, and the decoder takes exactly that many bytes. -/
def Obligations.OpByteFixesTheChunkLength : Prop :=
  clen .rgba = 5 ∧ clen .rgb = 4 ∧ clen .index = 1 ∧ clen .diff = 1 ∧ clen .luma = 2 ∧ clen .run = 1 ∧
  (∀ (b0 : Byte) (more rest : List Byte) (i : Instr), decode (b0 :: more) = .ok (i, rest) →
    i.op = opOf b0 ∧ (b0 :: more).length = clen (opOf b0) + rest.length) ∧
  (∀ i : Instr, (encode i).length = clen i.op)

/-- R102, R103: for every well-formed instruction, decoding its bytes gives it back and leaves what follows. -/
def Obligations.DecodeOfEncodeIsTheInstruction : Prop :=
  ∀ (i : Instr) (rest : List Byte), i.wf = true → decode (encode i ++ rest) = .ok (i, rest)

/-- R102, R106: whatever decodes is a well-formed instruction whose encoding is the bytes read. -/
def Obligations.EncodeOfDecodeIsTheBytes : Prop :=
  ∀ (bytes rest : List Byte) (i : Instr), decode bytes = .ok (i, rest) → i.wf = true ∧ encode i ++ rest = bytes

/-- Words of each format, written out from R103 and 95_test_vectors.md, decode to what they stand for. -/
def Obligations.SpecWordsDecode : Prop :=
  decodeTableWord 40 0x801E140AFF = some (.rgba 10#8 20#8 30#8 128#8) ∧
  decodeTableWord 32 0x030201FE = some (.rgb 1#8 2#8 3#8) ∧
  decodeTableWord 8 0x3F = some (.index 63#6) ∧
  decodeTableWord 8 0x79 = some (.diff 3#2 2#2 1#2) ∧
  decodeTableWord 16 0x78A0 = some (.luma 32#6 7#4 8#4) ∧
  decodeTableWord 8 0xFD = some (.run 61#6)

/-! ### Reading IN -/

/-- R72, R82, R106, R171, R283: once the host has placed the whole input, every step answers a next state. In DECODE
with `out_ready` low, where R324 and U9 say stuck, that next state is the same state: the model's choice (log 7). -/
def Obligations.EveryStepGoesOnWithAPlacedInput : Prop :=
  ∀ s : State, inputPlaced s → ∃ t, step s = .next t

/-- R72: no step reads at an offset `>= len`, nor ever refuses; the offsets it can wait for are 0..13 in VALIDATE,
once `len >= 22`, and at most `len - 5` in DECODE. -/
def Obligations.StepsReadWithinTheInput : Prop :=
  ∀ s : State,
    (∀ a, step s ≠ .fault (.inputOutOfRange a)) ∧ (∀ e, step s ≠ .refused e) ∧
    (∀ a, step s = .fault (.inputUnanswered a) →
      (s.fsm = .validate ∧ a < 14 ∧ 22 ≤ s.len) ∨
      (s.fsm = .decode ∧ s.cur ≤ a ∧ a < s.cur + 5 ∧ a + 5 ≤ s.len))

/-- R72, R173: in DECODE a step depends on no byte of IN but the up to five at the cursor, none past `len - 5`. -/
def Obligations.DecodeStepReadsOnlyItsChunk : Prop :=
  ∀ (s : State) (m : List Host.Cell), s.fsm = .decode →
    (∀ a, s.cur ≤ a → a < s.cur + 5 → a + 5 ≤ s.len → memRead m a = memRead s.inMem a) →
    step { s with inMem := m } = mapNext (fun t => { t with inMem := m }) (step s)

/-- R70: no step writes IN, and none changes the host's input levels or the parameter IN_LEN_W (R6). -/
def Obligations.NoStepWritesTheInput : Prop :=
  ∀ s t : State, step s = .next t → t.inMem = s.inMem ∧ t.pins = s.pins ∧ t.inLenW = s.inLenW

/-- R141, R284: only a step from DECODE writes OUT; neither T_VALIDATE nor a failed decode does. -/
def Obligations.OnlyDecodeWritesTheOutput : Prop :=
  ∀ s t : State, step s = .next t → s.fsm ≠ .decode → t.outMem = s.outMem

/-- R284: a decode that fails leaves what the host is promised of OUT as it was before: every byte that was known, of an
earlier image or written by the host, is still promised. -/
def Obligations.FailedDecodeKeepsTheOutput : Prop :=
  ∀ s t u : State, s.pins.rst = false → s.pins.start = true → (s.fsm = .idle ∨ s.fsm = .done ∨ s.fsm = .error) →
    step s = .next t → step t = .next u → u.fsm = .error →
    u.outMem = s.outMem ∧ ∀ a, outPromised u a = outPromised s a

/-- R324, U7: the host may write OUT at any time but for the bytes below `total * out_ch` of the decode under way. That a
breach is refused, and which bytes are barred in VALIDATE (those of the image that the header in IN starts, none where
it fails), is the model's choice (log 10); what is promised afterwards rests on log 11, also a choice. Outside busy it is promised what it wrote, and every other byte as
before. -/
def Obligations.HostWritesStayOffTheImage : Prop :=
  ∀ (s : State) (a : Nat) (v : Byte),
    (s.fsm = .decode →
      (hostMove (.writeOut a v) s = .refused .outputWrittenWhileBusy ↔ a < s.total.toNat * s.outCh.toNat)) ∧
    (∀ t, s.fsm = .validate → s.pins.rst = false → step s = .next t →
      (hostMove (.writeOut a v) s = .refused .outputWrittenWhileBusy ↔
        t.fsm = .decode ∧ a < t.total.toNat * t.outCh.toNat)) ∧
    (busy s = false → ∃ t, hostMove (.writeOut a v) s = .next t ∧ outPromised t a = some v ∧
      ∀ x, x ≠ a → outPromised t x = outPromised s x)

/-- R80, R82: a step of a decode changes only the bytes of the pixel it counts, and they lie in the image. -/
def Obligations.OutputWritesStayInTheImage : Prop :=
  ∀ (s t : State) (x : Nat), CountInv s → s.fsm = .decode → step s = .next t →
    memRead t.outMem x ≠ memRead s.outMem x →
    s.pix.toNat * s.outCh.toNat ≤ x ∧ x < (s.pix.toNat + 1) * s.outCh.toNat ∧ x < s.total.toNat * s.outCh.toNat

/-- R83 (d), R84: in DONE the host reads every byte of the image from OUT; while busy it is promised none. -/
def Obligations.HostReadsTheImageWhenDone : Prop :=
  (∀ (s : State) (a : Nat), CountInv s → ImageInv s → s.fsm = .done → a < s.total.toNat * s.outCh.toNat →
    ∃ v, memRead s.outMem a = some v ∧ hostReadOut a s = (v, s)) ∧
  (∀ (s : State) (a : Nat), busy s = true → outPromised s a = none)

/-! ### Invariants that every step keeps, from every state that has them -/

/-- Both memories keep their canonical form. -/
def Obligations.StepKeepsMemoriesCanonical : Prop :=
  ∀ s t : State, MemInv s → step s = .next t → MemInv t

/-- R262: the run counter stays 0..61. -/
def Obligations.StepKeepsRunInRange : Prop :=
  ∀ s t : State, RunInv s → step s = .next t → RunInv t

/-- R33, R72: the cursor stays 14..len-4, so it never wraps, whatever IN_LEN_W is; `len` and `cur` stay numbers of
that width. -/
def Obligations.StepKeepsCursorInRange : Prop :=
  ∀ s t : State, CursorInv s → step s = .next t → CursorInv t

/-- R43: each cache entry stays zero or a pixel whose hash is its slot; and what an INDEX of it then does. -/
def Obligations.StepKeepsCacheHashed : Prop :=
  (∀ s t : State, CacheInv s → step s = .next t → CacheInv t) ∧
  (∀ (s t : State) (idx : BitVec 6), CacheInv s → s.fsm = .decode → exec (.index idx) s = .next t →
    (t.px ≠ { r := 0#8, g := 0#8, b := 0#8, a := 0#8 } → t.cache = s.cache) ∧
    (t.px = { r := 0#8, g := 0#8, b := 0#8, a := 0#8 } →
      t.cache[0] = { r := 0#8, g := 0#8, b := 0#8, a := 0#8 } ∧
      ∀ k (hk : k < 64), k ≠ 0 → t.cache[k] = s.cache[k]))

/-- R36, R38, R168: the header registers and the pixel counter stay consistent, up to DONE at exactly `total`. -/
def Obligations.StepKeepsPixelCount : Prop :=
  ∀ s t : State, CountInv s → step s = .next t → CountInv t

/-- R45, R280: the status outputs stay legal: `err_code` nonzero exactly in ERROR, no image outside DECODE and DONE. -/
def Obligations.StepKeepsStatusLegal : Prop :=
  ∀ s t : State, ResultInv s → step s = .next t → ResultInv t

/-- R80, R83, R168: every byte of every pixel emitted so far is in OUT, up to the whole image in DONE. -/
def Obligations.StepKeepsImageWritten : Prop :=
  ∀ s t : State, CountInv s → ImageInv s → step s = .next t → ImageInv t

/-- Reset meets every invariant. `len` and `cur` meet the width bound of R33 and R37 at the zeros that the model gives
them at reset, where R50 leaves them UNSPEC: the model's choice (log 1). -/
def Obligations.ResetMeetsTheInvariants : Prop := MachineInv State.reset

/-- Whatever turns the host and the block take, from any state that meets the invariants, the invariants hold. -/
def Obligations.EveryRunKeepsTheInvariants : Prop :=
  ∀ (s t : State) (turns : List Turn), MachineInv s → takeTurns s turns = .next t → MachineInv t

/-! ### Whole decodes -/

/-- R172: two machines that differ only in the requested and selected output channels, and in OUT, stay so: `px`,
`run`, `cur`, the cache and all else go the same way, step by step, for any number of steps. -/
def Obligations.OutputChannelsNeverAffectDecoding : Prop :=
  ∀ (k : Nat) (s t : State), onlyOutputDiffers s t →
    outcomesRelated onlyOutputDiffers (core.run k s) (core.run k t)

/-- R168, R338: a decode on a placed input that the host lets run takes exactly `total - pix` more T_PIXELs: it is in
DECODE after fewer, with one pixel counted each, and in DONE after them. -/
def Obligations.DecodeTakesExactlyTotalPixels : Prop :=
  ∀ s : State, decoding s → CountInv s → inputPlaced s →
    (∀ k, k < s.total.toNat - s.pix.toNat →
      ∃ t, core.run k s = .next t ∧ t.fsm = .decode ∧ t.pix.toNat = s.pix.toNat + k) ∧
    (∃ t, core.run (s.total.toNat - s.pix.toNat) s = .next t ∧ t.fsm = .done ∧ t.pix = s.total)

/-- R211: after an op caches its pixel P, an INDEX of P's hash gives P, as long as no T_PIXEL in between caches a
pixel of that hash. -/
def Obligations.IndexReproducesTheCachedPixel : Prop :=
  ∀ (i : Instr) (s t u v : State), exec i s = .next t → SlotUntouched (pixelHash t.px) t u →
    exec (.index (pixelHash t.px)) u = .next v → v.px = t.px

/-- R261: after a RUN of field `f` read at pixel `pix`, up to the end of the image, the next `f` T_PIXELs read no input
and write no cache, and each of the pixels from that one on is `px`. -/
def Obligations.RunRepeatsThePixelFieldTimes : Prop :=
  ∀ (f : BitVec 6) (s t : State) (k : Nat), decoding s → CountInv s → exec (.run f) s = .next t →
    k ≤ f.toNat → s.pix.toNat + 1 + k ≤ s.total.toNat →
    ∃ u, core.run k t = .next u ∧ u.px = s.px ∧ u.cur = t.cur ∧ u.cache = t.cache ∧
      u.run.toNat = f.toNat - k ∧ u.pix.toNat = s.pix.toNat + 1 + k ∧
      (∀ m, core.run k { t with inMem := m } = .next { u with inMem := m }) ∧
      ∀ j, j ≤ k →
        memRead u.outMem ((s.pix.toNat + j) * s.outCh.toNat) = some s.px.r ∧
        memRead u.outMem ((s.pix.toNat + j) * s.outCh.toNat + 1) = some s.px.g ∧
        memRead u.outMem ((s.pix.toNat + j) * s.outCh.toNat + 2) = some s.px.b ∧
        (s.outCh = 4#3 → memRead u.outMem ((s.pix.toNat + j) * s.outCh.toNat + 3) = some s.px.a)
end

