-- ==== Sys2Proof/Laws/Decode.lean ====
section
/-! SUPPORT. The laws of the decoder: what an op byte selects, and that the bytes a fetch gathers always decode. -/

namespace Sys2Proof

theorem clen_pos (op : Op) : 1 ≤ clen op := by cases op <;> decide

theorem clen_le (op : Op) : clen op ≤ 5 := by cases op <;> decide

/-- A RUN op byte's field is 0..61 (R110). -/
theorem run_field_le : ∀ b0 : Byte, opOf b0 = .run → (b0.extractLsb' 0 6).toNat ≤ 61 := by decide

/-- The op byte and the operand bytes its op needs decode to a well-formed instruction of that op, and
nothing is left over (R104, R106). -/
theorem decodeOp_of_length {b0 : Byte} {bs : List Byte} (h : bs.length = clen (opOf b0) - 1) :
    ∃ i : Instr, decodeOp b0 bs = .ok (i, []) ∧ i.op = opOf b0 ∧ i.wf = true := by
  cases hop : opOf b0 <;> rw [hop] at h <;> simp only [clen] at h
  · match bs, h with
    | [r, g, b, a], _ => exact ⟨.rgba r g b a, by simp [decodeOp, hop], rfl, rfl⟩
  · match bs, h with
    | [r, g, b], _ => exact ⟨.rgb r g b, by simp [decodeOp, hop], rfl, rfl⟩
  · match bs, h with
    | [], _ => exact ⟨.index (b0.extractLsb' 0 6), by simp only [decodeOp, hop], rfl, rfl⟩
  · match bs, h with
    | [], _ => exact ⟨.diff (b0.extractLsb' 4 2) (b0.extractLsb' 2 2) (b0.extractLsb' 0 2), by simp only [decodeOp, hop], rfl, rfl⟩
  · match bs, h with
    | [b1], _ => exact ⟨.luma (b0.extractLsb' 0 6) (b1.extractLsb' 4 4) (b1.extractLsb' 0 4), by simp only [decodeOp, hop], rfl, rfl⟩
  · match bs, h with
    | [], _ =>
      exact ⟨.run (b0.extractLsb' 0 6), by simp only [decodeOp, hop], rfl, by
        simpa [Instr.wf] using run_field_le b0 hop⟩

/-- Only the bytes of the chunk itself decide what it decodes to: more bytes after them are left over. -/
theorem decodeOp_append {b0 : Byte} {bs : List Byte} (h : bs.length = clen (opOf b0) - 1) (more : List Byte)
    {i : Instr} (hi : decodeOp b0 bs = .ok (i, [])) : decodeOp b0 (bs ++ more) = .ok (i, more) := by
  cases hop : opOf b0 <;> rw [hop] at h <;> simp only [clen] at h
  · match bs, h with
    | [r, g, b, a], _ => simp_all [decodeOp]
  · match bs, h with
    | [r, g, b], _ => simp_all [decodeOp]
  · match bs, h with
    | [], _ => simp only [decodeOp, hop] at hi ⊢; simp_all
  · match bs, h with
    | [], _ => simp only [decodeOp, hop] at hi ⊢; simp_all
  · match bs, h with
    | [b1], _ => simp only [decodeOp, hop] at hi ⊢; simp_all
  · match bs, h with
    | [], _ => simp only [decodeOp, hop] at hi ⊢; simp_all

/-- A list that decodes holds at least the operand bytes of its op byte. -/
theorem length_of_decodeOp {b0 : Byte} {bs rest : List Byte} {i : Instr}
    (h : decodeOp b0 bs = .ok (i, rest)) : clen (opOf b0) - 1 ≤ bs.length := by
  cases hop : opOf b0 <;> simp only [clen]
  · match bs, h with
    | [], h | [_], h | [_, _], h | [_, _, _], h => simp [decodeOp, hop] at h
    | _ :: _ :: _ :: _ :: _, _ => simp
  · match bs, h with
    | [], h | [_], h | [_, _], h => simp [decodeOp, hop] at h
    | _ :: _ :: _ :: _, _ => simp
  · simp
  · simp
  · match bs, h with
    | [], h => simp [decodeOp, hop] at h
    | _ :: _, _ => simp
  · simp

end Sys2Proof
end

