-- ==== Sys2Proof/Laws/Memory.lean ====
section
/-! SUPPORT. The laws of the cell lists: a read after a write, and that every operation keeps the canonical form. -/

namespace Sys2Proof.Machine

open Sys2Proof

theorem memRead_memWrite (m : List Host.Cell) (a : Nat) (v : Byte) (x : Nat) :
    memRead (memWrite m a v) x = if x = a then some v else memRead m x := by
  induction m with
  | nil => simp [memWrite, memRead, eq_comm]
  | cons c m ih =>
    unfold memWrite
    split
    · simp only [memRead]; grind
    · split
      · simp only [memRead]; grind
      · simp only [memRead, ih]; grind

@[simp] theorem memRead_memWrite_same (m : List Host.Cell) (a : Nat) (v : Byte) :
    memRead (memWrite m a v) a = some v := by simp [memRead_memWrite]

theorem memRead_memWrite_ne (m : List Host.Cell) {a x : Nat} (v : Byte) (h : x ≠ a) :
    memRead (memWrite m a v) x = memRead m x := by simp [memRead_memWrite, h]

/-- Every cell of a written memory is the new one or an old one. -/
theorem mem_memWrite {m : List Host.Cell} {a : Nat} {v : Byte} {c : Host.Cell}
    (h : c ∈ memWrite m a v) : c = (a, v) ∨ c ∈ m := by
  induction m with
  | nil => simpa [memWrite] using h
  | cons d m ih =>
    unfold memWrite at h
    split at h
    · simpa using h
    · split at h
      · rcases List.mem_cons.1 h with h | h
        · exact .inl h
        · exact .inr (List.mem_cons_of_mem _ h)
      · rcases List.mem_cons.1 h with h | h
        · exact .inr (by simp [h])
        · exact (ih h).imp_right (List.mem_cons_of_mem _)

theorem memWf_memWrite {m : List Host.Cell} (h : memWf m) (a : Nat) (v : Byte) :
    memWf (memWrite m a v) := by
  induction m with
  | nil => simp [memWrite, memWf]
  | cons c m ih =>
    obtain ⟨hc, hm⟩ := List.pairwise_cons.1 h
    unfold memWrite
    split
    · refine List.pairwise_cons.2 ⟨fun d hd => ?_, h⟩
      rcases List.mem_cons.1 hd with rfl | hd
      · assumption
      · exact lt_trans ‹a < c.1› (hc d hd)
    · split
      · rename_i hac
        exact List.pairwise_cons.2 ⟨fun d hd => hac ▸ hc d hd, hm⟩
      · refine List.pairwise_cons.2 ⟨fun d hd => ?_, ih hm⟩
        rcases mem_memWrite hd with rfl | hd
        · simp only; omega
        · exact hc d hd

theorem memWf_memWriteBytes {m : List Host.Cell} (h : memWf m) (a : Nat) (vs : List Byte) :
    memWf (memWriteBytes m a vs) := by
  induction vs generalizing m a with
  | nil => exact h
  | cons v vs ih => exact ih (memWf_memWrite h a v) (a + 1)

theorem le_of_mem_memOfBytes {a : Nat} {vs : List Byte} {c : Host.Cell}
    (h : c ∈ memOfBytes a vs) : a ≤ c.1 := by
  induction vs generalizing a with
  | nil => simp [memOfBytes] at h
  | cons v vs ih =>
    rcases List.mem_cons.1 h with rfl | h
    · exact le_refl _
    · exact le_trans (Nat.le_succ a) (ih h)

theorem memWf_memOfBytes (a : Nat) (vs : List Byte) : memWf (memOfBytes a vs) := by
  induction vs generalizing a with
  | nil => exact List.Pairwise.nil
  | cons v vs ih =>
    exact List.pairwise_cons.2 ⟨fun c hc => Nat.lt_of_succ_le (le_of_mem_memOfBytes hc), ih _⟩

/-- The host's file reads back from IN byte for byte. -/
theorem memRead_memOfBytes (a : Nat) (vs : List Byte) (k : Nat) :
    memRead (memOfBytes a vs) (a + k) = vs[k]? := by
  induction vs generalizing a k with
  | nil => rfl
  | cons v vs ih =>
    cases k with
    | zero => simp [memOfBytes, memRead]
    | succ k =>
      have := ih (a + 1) k
      simp only [memOfBytes, memRead, List.getElem?_cons_succ]
      rw [if_neg (by omega), ← this]
      congr 1
      omega

/-! ### Ranges of offsets -/

@[simp] theorem offsetIn_cons (lo hi : Nat) (l : List (Nat × Nat)) (a : Nat) :
    offsetIn ((lo, hi) :: l) a = true ↔ (lo ≤ a ∧ a < hi) ∨ offsetIn l a = true := by
  simp [offsetIn]

/-- Removing `lo <= a < hi` removes exactly these offsets. -/
theorem offsetIn_offsetsRemove (lo hi : Nat) (l : List (Nat × Nat)) (a : Nat) :
    offsetIn (offsetsRemove lo hi l) a = true ↔ offsetIn l a = true ∧ ¬ (lo ≤ a ∧ a < hi) := by
  induction l with
  | nil => simp [offsetsRemove, offsetIn]
  | cons r l ih =>
    have hap : offsetIn (offsetsRemove lo hi (r :: l)) a = true ↔
        (r.1 ≤ a ∧ a < r.2 ∧ ¬ (lo ≤ a ∧ a < hi)) ∨ offsetIn (offsetsRemove lo hi l) a = true := by
      simp only [offsetsRemove, offsetIn, List.any_append, Bool.or_eq_true]
      refine or_congr ?_ Iff.rfl
      simp only [List.any_eq_true, List.mem_filter, List.mem_cons, List.not_mem_nil, or_false, decide_eq_true_eq]
      constructor
      · rintro ⟨q, ⟨rfl | rfl, hq⟩, h1, h2⟩ <;> simp only at * <;> omega
      · rintro ⟨h1, h2, h3⟩
        by_cases hlo : a < lo
        · exact ⟨_, ⟨.inl rfl, by simp only; omega⟩, by simp only; omega, by simp only; omega⟩
        · exact ⟨_, ⟨.inr rfl, by simp only; omega⟩, by simp only; omega, by simp only; omega⟩
    rw [hap, ih, offsetIn_cons]
    tauto

end Sys2Proof.Machine
end

