-- ==== Sys2Proof/Laws/State.lean ====
section
/-! SUPPORT. What each named update of the state does to each field: one equation per field per update. -/

namespace Sys2Proof.Machine

open Sys2Proof

/-! ### setPx -/

@[simp] theorem setPx_inLenW (p : Pixel) (s : State) : (setPx p s).inLenW = s.inLenW := rfl
@[simp] theorem setPx_pins (p : Pixel) (s : State) : (setPx p s).pins = s.pins := rfl
@[simp] theorem setPx_fsm (p : Pixel) (s : State) : (setPx p s).fsm = s.fsm := rfl
@[simp] theorem setPx_errCode (p : Pixel) (s : State) : (setPx p s).errCode = s.errCode := rfl
@[simp] theorem setPx_hdrW (p : Pixel) (s : State) : (setPx p s).hdrW = s.hdrW := rfl
@[simp] theorem setPx_hdrH (p : Pixel) (s : State) : (setPx p s).hdrH = s.hdrH := rfl
@[simp] theorem setPx_srcCh (p : Pixel) (s : State) : (setPx p s).srcCh = s.srcCh := rfl
@[simp] theorem setPx_cs (p : Pixel) (s : State) : (setPx p s).cs = s.cs := rfl
@[simp] theorem setPx_outCh (p : Pixel) (s : State) : (setPx p s).outCh = s.outCh := rfl
@[simp] theorem setPx_total (p : Pixel) (s : State) : (setPx p s).total = s.total := rfl
@[simp] theorem setPx_len (p : Pixel) (s : State) : (setPx p s).len = s.len := rfl
@[simp] theorem setPx_reqEn (p : Pixel) (s : State) : (setPx p s).reqEn = s.reqEn := rfl
@[simp] theorem setPx_req4 (p : Pixel) (s : State) : (setPx p s).req4 = s.req4 := rfl
@[simp] theorem setPx_px (p : Pixel) (s : State) : (setPx p s).px = p := rfl
@[simp] theorem setPx_run (p : Pixel) (s : State) : (setPx p s).run = s.run := rfl
@[simp] theorem setPx_cur (p : Pixel) (s : State) : (setPx p s).cur = s.cur := rfl
@[simp] theorem setPx_pix (p : Pixel) (s : State) : (setPx p s).pix = s.pix := rfl
@[simp] theorem setPx_cache (p : Pixel) (s : State) : (setPx p s).cache = s.cache := rfl
@[simp] theorem setPx_inMem (p : Pixel) (s : State) : (setPx p s).inMem = s.inMem := rfl
@[simp] theorem setPx_outMem (p : Pixel) (s : State) : (setPx p s).outMem = s.outMem := rfl
@[simp] theorem setPx_outOpen (p : Pixel) (s : State) : (setPx p s).outOpen = s.outOpen := rfl
@[simp] theorem setPx_draws (p : Pixel) (s : State) : (setPx p s).draws = s.draws := rfl

/-! ### setRun -/

@[simp] theorem setRun_inLenW (n : BitVec Config.runW) (s : State) : (setRun n s).inLenW = s.inLenW := rfl
@[simp] theorem setRun_pins (n : BitVec Config.runW) (s : State) : (setRun n s).pins = s.pins := rfl
@[simp] theorem setRun_fsm (n : BitVec Config.runW) (s : State) : (setRun n s).fsm = s.fsm := rfl
@[simp] theorem setRun_errCode (n : BitVec Config.runW) (s : State) : (setRun n s).errCode = s.errCode := rfl
@[simp] theorem setRun_hdrW (n : BitVec Config.runW) (s : State) : (setRun n s).hdrW = s.hdrW := rfl
@[simp] theorem setRun_hdrH (n : BitVec Config.runW) (s : State) : (setRun n s).hdrH = s.hdrH := rfl
@[simp] theorem setRun_srcCh (n : BitVec Config.runW) (s : State) : (setRun n s).srcCh = s.srcCh := rfl
@[simp] theorem setRun_cs (n : BitVec Config.runW) (s : State) : (setRun n s).cs = s.cs := rfl
@[simp] theorem setRun_outCh (n : BitVec Config.runW) (s : State) : (setRun n s).outCh = s.outCh := rfl
@[simp] theorem setRun_total (n : BitVec Config.runW) (s : State) : (setRun n s).total = s.total := rfl
@[simp] theorem setRun_len (n : BitVec Config.runW) (s : State) : (setRun n s).len = s.len := rfl
@[simp] theorem setRun_reqEn (n : BitVec Config.runW) (s : State) : (setRun n s).reqEn = s.reqEn := rfl
@[simp] theorem setRun_req4 (n : BitVec Config.runW) (s : State) : (setRun n s).req4 = s.req4 := rfl
@[simp] theorem setRun_px (n : BitVec Config.runW) (s : State) : (setRun n s).px = s.px := rfl
@[simp] theorem setRun_run (n : BitVec Config.runW) (s : State) : (setRun n s).run = n := rfl
@[simp] theorem setRun_cur (n : BitVec Config.runW) (s : State) : (setRun n s).cur = s.cur := rfl
@[simp] theorem setRun_pix (n : BitVec Config.runW) (s : State) : (setRun n s).pix = s.pix := rfl
@[simp] theorem setRun_cache (n : BitVec Config.runW) (s : State) : (setRun n s).cache = s.cache := rfl
@[simp] theorem setRun_inMem (n : BitVec Config.runW) (s : State) : (setRun n s).inMem = s.inMem := rfl
@[simp] theorem setRun_outMem (n : BitVec Config.runW) (s : State) : (setRun n s).outMem = s.outMem := rfl
@[simp] theorem setRun_outOpen (n : BitVec Config.runW) (s : State) : (setRun n s).outOpen = s.outOpen := rfl
@[simp] theorem setRun_draws (n : BitVec Config.runW) (s : State) : (setRun n s).draws = s.draws := rfl

/-! ### advanceCur -/

@[simp] theorem advanceCur_inLenW (n : Nat) (s : State) : (advanceCur n s).inLenW = s.inLenW := rfl
@[simp] theorem advanceCur_pins (n : Nat) (s : State) : (advanceCur n s).pins = s.pins := rfl
@[simp] theorem advanceCur_fsm (n : Nat) (s : State) : (advanceCur n s).fsm = s.fsm := rfl
@[simp] theorem advanceCur_errCode (n : Nat) (s : State) : (advanceCur n s).errCode = s.errCode := rfl
@[simp] theorem advanceCur_hdrW (n : Nat) (s : State) : (advanceCur n s).hdrW = s.hdrW := rfl
@[simp] theorem advanceCur_hdrH (n : Nat) (s : State) : (advanceCur n s).hdrH = s.hdrH := rfl
@[simp] theorem advanceCur_srcCh (n : Nat) (s : State) : (advanceCur n s).srcCh = s.srcCh := rfl
@[simp] theorem advanceCur_cs (n : Nat) (s : State) : (advanceCur n s).cs = s.cs := rfl
@[simp] theorem advanceCur_outCh (n : Nat) (s : State) : (advanceCur n s).outCh = s.outCh := rfl
@[simp] theorem advanceCur_total (n : Nat) (s : State) : (advanceCur n s).total = s.total := rfl
@[simp] theorem advanceCur_len (n : Nat) (s : State) : (advanceCur n s).len = s.len := rfl
@[simp] theorem advanceCur_reqEn (n : Nat) (s : State) : (advanceCur n s).reqEn = s.reqEn := rfl
@[simp] theorem advanceCur_req4 (n : Nat) (s : State) : (advanceCur n s).req4 = s.req4 := rfl
@[simp] theorem advanceCur_px (n : Nat) (s : State) : (advanceCur n s).px = s.px := rfl
@[simp] theorem advanceCur_run (n : Nat) (s : State) : (advanceCur n s).run = s.run := rfl
@[simp] theorem advanceCur_cur (n : Nat) (s : State) : (advanceCur n s).cur = lenBits s (s.cur + n) := rfl
@[simp] theorem advanceCur_pix (n : Nat) (s : State) : (advanceCur n s).pix = s.pix := rfl
@[simp] theorem advanceCur_cache (n : Nat) (s : State) : (advanceCur n s).cache = s.cache := rfl
@[simp] theorem advanceCur_inMem (n : Nat) (s : State) : (advanceCur n s).inMem = s.inMem := rfl
@[simp] theorem advanceCur_outMem (n : Nat) (s : State) : (advanceCur n s).outMem = s.outMem := rfl
@[simp] theorem advanceCur_outOpen (n : Nat) (s : State) : (advanceCur n s).outOpen = s.outOpen := rfl
@[simp] theorem advanceCur_draws (n : Nat) (s : State) : (advanceCur n s).draws = s.draws := rfl

/-! ### updateCache -/

@[simp] theorem updateCache_inLenW (s : State) : (updateCache s).inLenW = s.inLenW := rfl
@[simp] theorem updateCache_pins (s : State) : (updateCache s).pins = s.pins := rfl
@[simp] theorem updateCache_fsm (s : State) : (updateCache s).fsm = s.fsm := rfl
@[simp] theorem updateCache_errCode (s : State) : (updateCache s).errCode = s.errCode := rfl
@[simp] theorem updateCache_hdrW (s : State) : (updateCache s).hdrW = s.hdrW := rfl
@[simp] theorem updateCache_hdrH (s : State) : (updateCache s).hdrH = s.hdrH := rfl
@[simp] theorem updateCache_srcCh (s : State) : (updateCache s).srcCh = s.srcCh := rfl
@[simp] theorem updateCache_cs (s : State) : (updateCache s).cs = s.cs := rfl
@[simp] theorem updateCache_outCh (s : State) : (updateCache s).outCh = s.outCh := rfl
@[simp] theorem updateCache_total (s : State) : (updateCache s).total = s.total := rfl
@[simp] theorem updateCache_len (s : State) : (updateCache s).len = s.len := rfl
@[simp] theorem updateCache_reqEn (s : State) : (updateCache s).reqEn = s.reqEn := rfl
@[simp] theorem updateCache_req4 (s : State) : (updateCache s).req4 = s.req4 := rfl
@[simp] theorem updateCache_px (s : State) : (updateCache s).px = s.px := rfl
@[simp] theorem updateCache_run (s : State) : (updateCache s).run = s.run := rfl
@[simp] theorem updateCache_cur (s : State) : (updateCache s).cur = s.cur := rfl
@[simp] theorem updateCache_pix (s : State) : (updateCache s).pix = s.pix := rfl
@[simp] theorem updateCache_cache (s : State) : (updateCache s).cache = s.cache.set (pixelHash s.px).toNat s.px (pixelHash s.px).isLt := rfl
@[simp] theorem updateCache_inMem (s : State) : (updateCache s).inMem = s.inMem := rfl
@[simp] theorem updateCache_outMem (s : State) : (updateCache s).outMem = s.outMem := rfl
@[simp] theorem updateCache_outOpen (s : State) : (updateCache s).outOpen = s.outOpen := rfl
@[simp] theorem updateCache_draws (s : State) : (updateCache s).draws = s.draws := rfl

/-! ### writePixel -/

@[simp] theorem writePixel_inLenW (s : State) : (writePixel s).inLenW = s.inLenW := rfl
@[simp] theorem writePixel_pins (s : State) : (writePixel s).pins = s.pins := rfl
@[simp] theorem writePixel_fsm (s : State) : (writePixel s).fsm = s.fsm := rfl
@[simp] theorem writePixel_errCode (s : State) : (writePixel s).errCode = s.errCode := rfl
@[simp] theorem writePixel_hdrW (s : State) : (writePixel s).hdrW = s.hdrW := rfl
@[simp] theorem writePixel_hdrH (s : State) : (writePixel s).hdrH = s.hdrH := rfl
@[simp] theorem writePixel_srcCh (s : State) : (writePixel s).srcCh = s.srcCh := rfl
@[simp] theorem writePixel_cs (s : State) : (writePixel s).cs = s.cs := rfl
@[simp] theorem writePixel_outCh (s : State) : (writePixel s).outCh = s.outCh := rfl
@[simp] theorem writePixel_total (s : State) : (writePixel s).total = s.total := rfl
@[simp] theorem writePixel_len (s : State) : (writePixel s).len = s.len := rfl
@[simp] theorem writePixel_reqEn (s : State) : (writePixel s).reqEn = s.reqEn := rfl
@[simp] theorem writePixel_req4 (s : State) : (writePixel s).req4 = s.req4 := rfl
@[simp] theorem writePixel_px (s : State) : (writePixel s).px = s.px := rfl
@[simp] theorem writePixel_run (s : State) : (writePixel s).run = s.run := rfl
@[simp] theorem writePixel_cur (s : State) : (writePixel s).cur = s.cur := rfl
@[simp] theorem writePixel_pix (s : State) : (writePixel s).pix = s.pix := rfl
@[simp] theorem writePixel_cache (s : State) : (writePixel s).cache = s.cache := rfl
@[simp] theorem writePixel_inMem (s : State) : (writePixel s).inMem = s.inMem := rfl
@[simp] theorem writePixel_outMem (s : State) : (writePixel s).outMem = acceptWrite (portWrite s) s.outMem := rfl
@[simp] theorem writePixel_outOpen (s : State) : (writePixel s).outOpen = s.outOpen := rfl
@[simp] theorem writePixel_draws (s : State) : (writePixel s).draws = s.draws := rfl

/-! ### countPixel -/

@[simp] theorem countPixel_inLenW (s : State) : (countPixel s).inLenW = s.inLenW := rfl
@[simp] theorem countPixel_pins (s : State) : (countPixel s).pins = s.pins := rfl
@[simp] theorem countPixel_fsm (s : State) : (countPixel s).fsm = if s.pix + 1#_ = s.total then .done else s.fsm := rfl
@[simp] theorem countPixel_errCode (s : State) : (countPixel s).errCode = s.errCode := rfl
@[simp] theorem countPixel_hdrW (s : State) : (countPixel s).hdrW = s.hdrW := rfl
@[simp] theorem countPixel_hdrH (s : State) : (countPixel s).hdrH = s.hdrH := rfl
@[simp] theorem countPixel_srcCh (s : State) : (countPixel s).srcCh = s.srcCh := rfl
@[simp] theorem countPixel_cs (s : State) : (countPixel s).cs = s.cs := rfl
@[simp] theorem countPixel_outCh (s : State) : (countPixel s).outCh = s.outCh := rfl
@[simp] theorem countPixel_total (s : State) : (countPixel s).total = s.total := rfl
@[simp] theorem countPixel_len (s : State) : (countPixel s).len = s.len := rfl
@[simp] theorem countPixel_reqEn (s : State) : (countPixel s).reqEn = s.reqEn := rfl
@[simp] theorem countPixel_req4 (s : State) : (countPixel s).req4 = s.req4 := rfl
@[simp] theorem countPixel_px (s : State) : (countPixel s).px = s.px := rfl
@[simp] theorem countPixel_run (s : State) : (countPixel s).run = s.run := rfl
@[simp] theorem countPixel_cur (s : State) : (countPixel s).cur = s.cur := rfl
@[simp] theorem countPixel_pix (s : State) : (countPixel s).pix = s.pix + 1#_ := rfl
@[simp] theorem countPixel_cache (s : State) : (countPixel s).cache = s.cache := rfl
@[simp] theorem countPixel_inMem (s : State) : (countPixel s).inMem = s.inMem := rfl
@[simp] theorem countPixel_outMem (s : State) : (countPixel s).outMem = s.outMem := rfl
@[simp] theorem countPixel_outOpen (s : State) : (countPixel s).outOpen = s.outOpen := rfl
@[simp] theorem countPixel_draws (s : State) : (countPixel s).draws = s.draws := rfl

/-! ### raiseErr -/

@[simp] theorem raiseErr_inLenW (e : HeaderError) (s : State) : (raiseErr e s).inLenW = s.inLenW := rfl
@[simp] theorem raiseErr_pins (e : HeaderError) (s : State) : (raiseErr e s).pins = s.pins := rfl
@[simp] theorem raiseErr_fsm (e : HeaderError) (s : State) : (raiseErr e s).fsm = .error := rfl
@[simp] theorem raiseErr_errCode (e : HeaderError) (s : State) : (raiseErr e s).errCode = errorCode e := rfl
@[simp] theorem raiseErr_hdrW (e : HeaderError) (s : State) : (raiseErr e s).hdrW = s.hdrW := rfl
@[simp] theorem raiseErr_hdrH (e : HeaderError) (s : State) : (raiseErr e s).hdrH = s.hdrH := rfl
@[simp] theorem raiseErr_srcCh (e : HeaderError) (s : State) : (raiseErr e s).srcCh = s.srcCh := rfl
@[simp] theorem raiseErr_cs (e : HeaderError) (s : State) : (raiseErr e s).cs = s.cs := rfl
@[simp] theorem raiseErr_outCh (e : HeaderError) (s : State) : (raiseErr e s).outCh = s.outCh := rfl
@[simp] theorem raiseErr_total (e : HeaderError) (s : State) : (raiseErr e s).total = s.total := rfl
@[simp] theorem raiseErr_len (e : HeaderError) (s : State) : (raiseErr e s).len = s.len := rfl
@[simp] theorem raiseErr_reqEn (e : HeaderError) (s : State) : (raiseErr e s).reqEn = s.reqEn := rfl
@[simp] theorem raiseErr_req4 (e : HeaderError) (s : State) : (raiseErr e s).req4 = s.req4 := rfl
@[simp] theorem raiseErr_px (e : HeaderError) (s : State) : (raiseErr e s).px = s.px := rfl
@[simp] theorem raiseErr_run (e : HeaderError) (s : State) : (raiseErr e s).run = s.run := rfl
@[simp] theorem raiseErr_cur (e : HeaderError) (s : State) : (raiseErr e s).cur = s.cur := rfl
@[simp] theorem raiseErr_pix (e : HeaderError) (s : State) : (raiseErr e s).pix = s.pix := rfl
@[simp] theorem raiseErr_cache (e : HeaderError) (s : State) : (raiseErr e s).cache = s.cache := rfl
@[simp] theorem raiseErr_inMem (e : HeaderError) (s : State) : (raiseErr e s).inMem = s.inMem := rfl
@[simp] theorem raiseErr_outMem (e : HeaderError) (s : State) : (raiseErr e s).outMem = s.outMem := rfl
@[simp] theorem raiseErr_outOpen (e : HeaderError) (s : State) : (raiseErr e s).outOpen = s.outOpen := rfl
@[simp] theorem raiseErr_draws (e : HeaderError) (s : State) : (raiseErr e s).draws = s.draws := rfl

/-! ### clearResults -/

@[simp] theorem clearResults_inLenW (s : State) : (clearResults s).inLenW = s.inLenW := rfl
@[simp] theorem clearResults_pins (s : State) : (clearResults s).pins = s.pins := rfl
@[simp] theorem clearResults_fsm (s : State) : (clearResults s).fsm = s.fsm := rfl
@[simp] theorem clearResults_errCode (s : State) : (clearResults s).errCode = 0#_ := rfl
@[simp] theorem clearResults_hdrW (s : State) : (clearResults s).hdrW = 0#_ := rfl
@[simp] theorem clearResults_hdrH (s : State) : (clearResults s).hdrH = 0#_ := rfl
@[simp] theorem clearResults_srcCh (s : State) : (clearResults s).srcCh = s.srcCh := rfl
@[simp] theorem clearResults_cs (s : State) : (clearResults s).cs = 0#_ := rfl
@[simp] theorem clearResults_outCh (s : State) : (clearResults s).outCh = 0#_ := rfl
@[simp] theorem clearResults_total (s : State) : (clearResults s).total = s.total := rfl
@[simp] theorem clearResults_len (s : State) : (clearResults s).len = s.len := rfl
@[simp] theorem clearResults_reqEn (s : State) : (clearResults s).reqEn = s.reqEn := rfl
@[simp] theorem clearResults_req4 (s : State) : (clearResults s).req4 = s.req4 := rfl
@[simp] theorem clearResults_px (s : State) : (clearResults s).px = s.px := rfl
@[simp] theorem clearResults_run (s : State) : (clearResults s).run = s.run := rfl
@[simp] theorem clearResults_cur (s : State) : (clearResults s).cur = s.cur := rfl
@[simp] theorem clearResults_pix (s : State) : (clearResults s).pix = s.pix := rfl
@[simp] theorem clearResults_cache (s : State) : (clearResults s).cache = s.cache := rfl
@[simp] theorem clearResults_inMem (s : State) : (clearResults s).inMem = s.inMem := rfl
@[simp] theorem clearResults_outMem (s : State) : (clearResults s).outMem = s.outMem := rfl
@[simp] theorem clearResults_outOpen (s : State) : (clearResults s).outOpen = s.outOpen := rfl
@[simp] theorem clearResults_draws (s : State) : (clearResults s).draws = s.draws := rfl

end Sys2Proof.Machine
end

