-- ==== Sys2Proof/Laws/Ops.lean ====
section
/-! SUPPORT. One lemma for each shared operation, saying once everything it does: reads of IN, the port write, the
cache, the ends of a T_PIXEL, the channel adder. Later proofs cite these and do not unfold the operations. -/

namespace Sys2Proof.Machine

open Sys2Proof

/-! ### Widths -/

/-- `ceilLog2 n` is the least exponent whose power of two is not below `n`: the `ceil(log2 n)` of R6. -/
theorem ceilLog2_le_iff {n k : Nat} (hn : 1 ≤ n) : Config.ceilLog2 n ≤ k ↔ n ≤ 2 ^ k := by
  rw [Config.ceilLog2, ← Nat.lt_succ_iff, Nat.log2_lt (by omega), Nat.succ_eq_add_one, pow_succ]
  omega

/-- PIX_W and OUT_ADDR_W at the default ceiling (R6). -/
theorem pixW_eq : Config.pixW = 29 := by decide
theorem outAddrW_eq : Config.outAddrW = 31 := by decide

/-- The bound of a pixel count at the default ceiling. -/
theorem pix_lt (n : BitVec Config.pixW) : n.toNat < 2 ^ 29 := n.isLt

/-- A value that IN_LEN_W bits can hold is held as it is. -/
theorem lenBits_of_lt {s : State} {n : Nat} (h : n < 2 ^ s.inLenW) : lenBits s n = n := Nat.mod_eq_of_lt h

theorem lenBits_lt (s : State) (n : Nat) : lenBits s n < 2 ^ s.inLenW := Nat.mod_lt _ (Nat.two_pow_pos _)

/-! ### Reading IN -/

theorem readIn_ok_iff {s : State} {a : Nat} {b : Byte} :
    readIn s a = .ok b ↔ a < s.len ∧ memRead s.inMem a = some b := by
  unfold readIn
  split
  · split <;> simp_all
  · simp_all

theorem readIn_error {s : State} {a : Nat} {f : Fault} (h : readIn s a = .error f) :
    (f = .inputUnanswered a ∧ memRead s.inMem a = none) ∨ (f = .inputOutOfRange a ∧ s.len ≤ a) := by
  unfold readIn at h
  split at h
  · split at h <;> simp_all
  · simp_all

theorem readIn_congr {s t : State} {a : Nat} (hl : s.len = t.len)
    (h : a < s.len → memRead s.inMem a = memRead t.inMem a) : readIn s a = readIn t a := by
  unfold readIn
  rw [← hl]
  split
  · rw [h ‹_›]
  · rfl

theorem readInBytes_congr {s t : State} (hl : s.len = t.len) (n a : Nat)
    (h : ∀ x, a ≤ x → x < a + n → x < s.len → memRead s.inMem x = memRead t.inMem x) :
    readInBytes s a n = readInBytes t a n := by
  induction n generalizing a with
  | zero => rfl
  | succ n ih =>
    simp only [readInBytes]
    rw [readIn_congr hl (fun hx => h a le_rfl (by omega) hx),
      ih (a + 1) (fun x h1 h2 h3 => h x (by omega) (by omega) h3)]

theorem readInBytes_length {s : State} {n a : Nat} {bs : List Byte}
    (h : readInBytes s a n = .ok bs) : bs.length = n := by
  induction n generalizing a bs with
  | zero => simp only [readInBytes, Except.ok.injEq] at h; subst h; rfl
  | succ n ih =>
    simp only [readInBytes] at h
    split at h
    · cases h
    · split at h
      · cases h
      · cases h; simpa using ih ‹_›

/-- Each byte of a run of reads is what the read at its offset answers. -/
theorem readInBytes_getElem {s : State} {n a : Nat} {bs : List Byte} (h : readInBytes s a n = .ok bs)
    (k : Nat) (hk : k < bs.length) : readIn s (a + k) = .ok bs[k] := by
  induction n generalizing a bs k with
  | zero => simp only [readInBytes, Except.ok.injEq] at h; subst h; simp at hk
  | succ n ih =>
    simp only [readInBytes] at h
    split at h
    · cases h
    · split at h
      · cases h
      · cases h
        cases k with
        | zero => assumption
        | succ k =>
          rename_i h1
          exact (congrArg (readIn s) (by omega : a + (k + 1) = a + 1 + k)).trans (ih h1 k (by simpa using hk))

/-- Placed bytes below `len` are what a run of reads answers. -/
theorem readInBytes_of_placed {s : State} (bs : List Byte) (a : Nat)
    (hp : ∀ k (h : k < bs.length), memRead s.inMem (a + k) = some bs[k])
    (hl : a + bs.length ≤ s.len) : readInBytes s a bs.length = .ok bs := by
  induction bs generalizing a with
  | nil => rfl
  | cons b bs ih =>
    have h0 : readIn s a = .ok b :=
      readIn_ok_iff.2 ⟨by simp at hl; omega, hp 0 (by simp)⟩
    have ht := ih (a + 1)
      (fun k h => (congrArg (memRead s.inMem) (by omega : a + 1 + k = a + (k + 1))).trans
        (hp (k + 1) (by simpa using h)))
      (by simp at hl; omega)
    simp only [List.length_cons, readInBytes, h0, ht]

/-- A run of reads below `len` fails only at a byte the host has not placed. -/
theorem readInBytes_error {s : State} {n a : Nat} {f : Fault} (h : readInBytes s a n = .error f)
    (hl : a + n ≤ s.len) : ∃ x, a ≤ x ∧ x < a + n ∧ f = .inputUnanswered x ∧ memRead s.inMem x = none := by
  induction n generalizing a with
  | zero => simp [readInBytes] at h
  | succ n ih =>
    simp only [readInBytes] at h
    split at h
    · cases h
      rcases readIn_error ‹_› with h | h
      · exact ⟨a, le_rfl, by omega, h⟩
      · omega
    · split at h
      · cases h
        obtain ⟨x, h1, h2, h3⟩ := ih ‹_› (by omega)
        exact ⟨x, by omega, by omega, h3⟩
      · cases h

theorem readU32be_ok_iff {s : State} {a : Nat} {w : BitVec 32} :
    readU32be s a = .ok w ↔ ∃ b0 b1 b2 b3, readIn s a = .ok b0 ∧ readIn s (a + 1) = .ok b1 ∧
      readIn s (a + 2) = .ok b2 ∧ readIn s (a + 3) = .ok b3 ∧ w = beWord b0 b1 b2 b3 := by
  unfold readU32be
  cases readIn s a <;> cases readIn s (a + 1) <;> cases readIn s (a + 2) <;> cases readIn s (a + 3) <;>
    simp [eq_comm]

theorem readU32be_error {s : State} {a : Nat} {f : Fault} (h : readU32be s a = .error f)
    (hl : a + 4 ≤ s.len) : ∃ x, a ≤ x ∧ x < a + 4 ∧ f = .inputUnanswered x ∧ memRead s.inMem x = none := by
  have key : ∀ x, a ≤ x → x < a + 4 → readIn s x = .error f →
      ∃ y, a ≤ y ∧ y < a + 4 ∧ f = .inputUnanswered y ∧ memRead s.inMem y = none := by
    intro x h1 h2 hx
    rcases readIn_error hx with h | h
    · exact ⟨x, h1, h2, h⟩
    · omega
  unfold readU32be at h
  split at h <;> cases h
  · exact key a (by omega) (by omega) ‹_›
  · exact key (a + 1) (by omega) (by omega) ‹_›
  · exact key (a + 2) (by omega) (by omega) ‹_›
  · exact key (a + 3) (by omega) (by omega) ‹_›

theorem readU32be_congr {s t : State} (hl : s.len = t.len) (a : Nat)
    (h : ∀ x, a ≤ x → x < a + 4 → x < s.len → memRead s.inMem x = memRead t.inMem x) :
    readU32be s a = readU32be t a := by
  unfold readU32be
  rw [readIn_congr hl (fun hx => h a (by omega) (by omega) hx),
    readIn_congr hl (fun hx => h (a + 1) (by omega) (by omega) hx),
    readIn_congr hl (fun hx => h (a + 2) (by omega) (by omega) hx),
    readIn_congr hl (fun hx => h (a + 3) (by omega) (by omega) hx)]

theorem beWord_toNat (b0 b1 b2 b3 : Byte) :
    (beWord b0 b1 b2 b3).toNat = ((b0.toNat * 256 + b1.toNat) * 256 + b2.toNat) * 256 + b3.toNat := by
  simp only [beWord, BitVec.toNat_append]
  have h1 := b1.isLt; have h2 := b2.isLt; have h3 := b3.isLt
  simp only [Nat.shiftLeft_eq, Nat.mul_comm _ (2 ^ 8)]
  rw [← Nat.two_pow_add_eq_or_of_lt h1, ← Nat.two_pow_add_eq_or_of_lt h2, ← Nat.two_pow_add_eq_or_of_lt h3]
  omega

/-! ### The output port -/

theorem packPixel_lane0 (p : Pixel) : (packPixel p).extractLsb' 0 8 = p.r := by
  ext i hi
  simp only [packPixel, BitVec.getElem_extractLsb', BitVec.getLsbD_append]
  simp [hi, BitVec.getLsbD_eq_getElem]
theorem packPixel_lane1 (p : Pixel) : (packPixel p).extractLsb' 8 8 = p.g := by
  ext i hi
  simp only [packPixel, BitVec.getElem_extractLsb', BitVec.getLsbD_append]
  simp [show ¬ 8 + i < 8 by omega, hi, BitVec.getLsbD_eq_getElem]
theorem packPixel_lane2 (p : Pixel) : (packPixel p).extractLsb' 16 8 = p.b := by
  ext i hi
  simp only [packPixel, BitVec.getElem_extractLsb', BitVec.getLsbD_append]
  simp [show ¬ 16 + i < 8 by omega, show ¬ 16 + i - 8 < 8 by omega, show 16 + i - 8 - 8 = i by omega, hi,
    BitVec.getLsbD_eq_getElem]
theorem packPixel_lane3 (p : Pixel) : (packPixel p).extractLsb' 24 8 = p.a := by
  ext i hi
  simp only [packPixel, BitVec.getElem_extractLsb', BitVec.getLsbD_append]
  simp [show ¬ 24 + i < 8 by omega, show ¬ 24 + i - 8 < 8 by omega, show ¬ 24 + i - 8 - 8 < 8 by omega,
    show 24 + i - 8 - 8 - 8 = i by omega, hi, BitVec.getLsbD_eq_getElem]

/-- Everything the accepted write of the current pixel does to OUT: r, g, b at the port's address upward,
a after them iff `out_ch = 4`, and no other byte (R76, R169). -/
theorem memRead_acceptWrite (s : State) (m : List Host.Cell) (x : Nat) :
    memRead (acceptWrite (portWrite s) m) x =
      if x = (portWrite s).addr.toNat then some s.px.r
      else if x = (portWrite s).addr.toNat + 1 then some s.px.g
      else if x = (portWrite s).addr.toNat + 2 then some s.px.b
      else if s.outCh = 4#3 ∧ x = (portWrite s).addr.toNat + 3 then some s.px.a
      else memRead m x := by
  have hw : (portWrite s).wdata = packPixel s.px := rfl
  by_cases h4 : s.outCh = 4#3
  · have hb : (portWrite s).be = 0b1111#4 := by simp [portWrite, h4]
    simp only [acceptWrite, acceptLane, hb, hw, Nat.mul_zero, Nat.mul_one, Nat.reduceMul, packPixel_lane0,
      packPixel_lane1, packPixel_lane2, packPixel_lane3, h4, true_and]
    simp only [show (0b1111#4).getLsbD 0 = true by decide, show (0b1111#4).getLsbD 1 = true by decide,
      show (0b1111#4).getLsbD 2 = true by decide, show (0b1111#4).getLsbD 3 = true by decide, if_true,
      memRead_memWrite, Nat.add_zero]
    split_ifs <;> first | rfl | omega
  · have hb : (portWrite s).be = 0b0111#4 := by simp [portWrite, h4]
    simp only [acceptWrite, acceptLane, hb, hw, Nat.mul_zero, Nat.mul_one, Nat.reduceMul, packPixel_lane0,
      packPixel_lane1, packPixel_lane2, h4, false_and, if_false]
    simp only [show (0b0111#4).getLsbD 0 = true by decide, show (0b0111#4).getLsbD 1 = true by decide,
      show (0b0111#4).getLsbD 2 = true by decide, show (0b0111#4).getLsbD 3 = false by decide, if_true,
      memRead_memWrite, Nat.add_zero, Bool.false_eq_true, if_false]
    split_ifs <;> first | rfl | omega

theorem memWf_acceptLane {m : List Host.Cell} (h : memWf m) (w : PortWrite) (k : Nat) :
    memWf (acceptLane w k m) := by
  unfold acceptLane
  split
  · exact memWf_memWrite h _ _
  · exact h

theorem memWf_acceptWrite {m : List Host.Cell} (h : memWf m) (w : PortWrite) : memWf (acceptWrite w m) :=
  memWf_acceptLane (memWf_acceptLane (memWf_acceptLane (memWf_acceptLane h w 0) w 1) w 2) w 3

/-- The port's address is `pix * out_ch` whenever `out_ch` is 3 or 4, and it never wraps (R234). -/
theorem portWrite_addr {s : State} (h : s.outCh = 3#3 ∨ s.outCh = 4#3) :
    (portWrite s).addr.toNat = s.pix.toNat * s.outCh.toNat := by
  have hp := pix_lt s.pix
  have h4 : s.outCh.toNat ≤ 4 := by rcases h with h | h <;> simp [h]
  have : s.pix.toNat * s.outCh.toNat < 2 ^ 31 := by
    calc s.pix.toNat * s.outCh.toNat ≤ s.pix.toNat * 4 := Nat.mul_le_mul_left _ h4
      _ < 2 ^ 31 := by omega
  simp only [portWrite, BitVec.toNat_ofNat]
  exact Nat.mod_eq_of_lt this

/-! ### The hash and the cache -/

theorem pixelHash_toNat (p : Pixel) :
    (pixelHash p).toNat = (p.r.toNat * 3 + p.g.toNat * 5 + p.b.toNat * 7 + p.a.toNat * 11) % 64 := by
  simp [pixelHash]

theorem pixelHash_zero : pixelHash zeroPixel = 0#6 := by decide

/-- The one slot a cache update writes is `hash(px)` (R167). -/
theorem updateCache_getElem (s : State) (k : Nat) (hk : k < Config.cacheSlots) :
    (updateCache s).cache[k] = if k = (pixelHash s.px).toNat then s.px else s.cache[k] := by
  simp only [updateCache_cache, Vector.getElem_set, eq_comm]

/-! ### The end of a T_PIXEL -/

/-- What the end of every T_PIXEL writes, field by field (R168, R169): OUT, `pix` and `fsm`. -/
theorem emitPixel_eq (s : State) :
    emitPixel s = { s with
      outMem := acceptWrite (portWrite s) s.outMem
      pix := s.pix + 1#_
      fsm := if s.pix + 1#_ = s.total then .done else s.fsm } := rfl

/-- What the end of an op writes, field by field: OUT, `pix`, `fsm`, `cur` and `cache` (R160). -/
theorem finishOp_eq (op : Op) (s : State) :
    finishOp op s = { s with
      cur := lenBits s (s.cur + clen op)
      cache := s.cache.set (pixelHash s.px).toNat s.px (pixelHash s.px).isLt
      outMem := acceptWrite (portWrite s) s.outMem
      pix := s.pix + 1#_
      fsm := if s.pix + 1#_ = s.total then .done else s.fsm } := rfl

@[simp] theorem finishOp_px (op : Op) (s : State) : (finishOp op s).px = s.px := rfl
@[simp] theorem finishOp_run (op : Op) (s : State) : (finishOp op s).run = s.run := rfl

/-! ### The channel adder -/

/-- R230: the adder's result is the exact sum mod 256. -/
theorem addChannel_toNat (ch : Byte) (d : Int) :
    ((addChannel ch d).toNat : Int) = ((ch.toNat : Int) + d) % 256 := by
  simp only [addChannel, BitVec.toNat_ofInt]
  omega

end Sys2Proof.Machine
end

