-- ==== Sys2Proof/Laws/Validate.lean ====
section
/-! SUPPORT. What the header validator can answer, said once: a header, a rejection, or a byte the host never
answers. -/

namespace Sys2Proof.Machine

open Sys2Proof

theorem checkDims_none {ceiling : Nat} {w h : BitVec 32} (hd : checkDims ceiling w h = none) :
    w ≠ 0#32 ∧ h ≠ 0#32 ∧ w.toNat * h.toNat ≤ ceiling := by
  unfold checkDims at hd
  split at hd
  · cases hd
  · split at hd
    · cases hd
    · split at hd
      · cases hd
      · exact ⟨‹_›, ‹_›, by omega⟩

theorem checkChannels_none {c : Byte} (hc : checkChannels c = none) : c = 3#8 ∨ c = 4#8 := by
  unfold checkChannels at hc
  split at hc
  · cases hc
  · tauto

theorem checkColorspace_none {cs : Byte} (hc : checkColorspace cs = none) : cs.extractLsb' 4 4 = 0#4 := by
  unfold checkColorspace at hc
  split at hc
  · cases hc
  · tauto

theorem checkDims_some {ceiling : Nat} {w h : BitVec 32} {e : HeaderError} (hd : checkDims ceiling w h = some e) :
    (e = .illegalWidth ∧ w = 0#32) ∨ (e = .illegalHeight ∧ w ≠ 0#32 ∧ h = 0#32) ∨
      (e = .imageTooLarge ∧ w ≠ 0#32 ∧ h ≠ 0#32 ∧ ceiling < w.toNat * h.toNat) := by
  unfold checkDims at hd
  split at hd
  · cases hd; simp_all
  · split at hd
    · cases hd; simp_all
    · split at hd
      · cases hd; simp_all
      · cases hd

theorem checkChannels_some {c : Byte} {e : HeaderError} (hc : checkChannels c = some e) :
    e = .illegalChannels ∧ c ≠ 3#8 ∧ c ≠ 4#8 := by
  unfold checkChannels at hc
  split at hc
  · cases hc; simp_all
  · cases hc

theorem checkColorspace_some {cs : Byte} {e : HeaderError} (hc : checkColorspace cs = some e) :
    e = .illegalColorspace ∧ cs.extractLsb' 4 4 ≠ 0#4 := by
  unfold checkColorspace at hc
  split at hc
  · cases hc; simp_all
  · cases hc

/-- A header that passes all seven checks (R138): where its fields come from and what they satisfy. -/
theorem headerVerdict_ok {s : State} {hd : Header} (h : headerVerdict s = .ok (.ok hd)) :
    22 ≤ s.len ∧ readInBytes s 0 4 = .ok magicBytes ∧ readU32be s 4 = .ok hd.w ∧
      readU32be s 8 = .ok hd.h ∧ readIn s 12 = .ok hd.c ∧ readIn s 13 = .ok hd.cs ∧
      hd.w ≠ 0#32 ∧ hd.h ≠ 0#32 ∧ hd.w.toNat * hd.h.toNat ≤ Config.pixelCeiling ∧
      (hd.c = 3#8 ∨ hd.c = 4#8) ∧ hd.cs.extractLsb' 4 4 = 0#4 := by
  unfold headerVerdict at h
  split at h
  · cases h
  rename_i hlen
  split at h
  · cases h
  rename_i magic hmagic
  split at h
  rotate_left
  · cases h
  rename_i hm
  subst hm
  unfold verdictDims at h
  split at h
  · cases h
  rename_i w hw
  split at h
  · cases h
  rename_i h' hh
  split at h
  · cases h
  rename_i hdims
  unfold verdictChannels at h
  split at h
  · cases h
  rename_i c hc
  split at h
  · cases h
  rename_i hchk
  unfold verdictColorspace at h
  split at h
  · cases h
  rename_i cs hcs
  split at h
  · cases h
  rename_i hcol
  cases h
  obtain ⟨h1, h2, h3⟩ := checkDims_none hdims
  exact ⟨by simp only [Config.minLen, Config.hdrLen, Config.padLen] at hlen; omega, hmagic, hw, hh, hc, hcs,
    h1, h2, h3, checkChannels_none hchk, checkColorspace_none hcol⟩

/-- A header that is rejected (R130): which check failed, on which bytes, and that those before it passed. -/
theorem headerVerdict_reject {s : State} {e : HeaderError} (h : headerVerdict s = .ok (.error e)) :
    (e = .tooShort ∧ s.len < 22) ∨
    (22 ≤ s.len ∧ ∃ magic, readInBytes s 0 4 = .ok magic ∧
      ((e = .badMagic ∧ magic ≠ magicBytes) ∨
       (magic = magicBytes ∧ ∃ w h, readU32be s 4 = .ok w ∧ readU32be s 8 = .ok h ∧
        (checkDims Config.pixelCeiling w h = some e ∨
         (checkDims Config.pixelCeiling w h = none ∧ ∃ c, readIn s 12 = .ok c ∧
          (checkChannels c = some e ∨
           (checkChannels c = none ∧ ∃ cs, readIn s 13 = .ok cs ∧ checkColorspace cs = some e))))))) := by
  unfold headerVerdict at h
  split at h
  · rename_i hlen
    cases h
    exact .inl ⟨rfl, hlen⟩
  rename_i hlen
  refine .inr ⟨by simp only [Config.minLen, Config.hdrLen, Config.padLen] at hlen; omega, ?_⟩
  split at h
  · cases h
  rename_i magic hmagic
  refine ⟨magic, hmagic, ?_⟩
  split at h
  rotate_left
  · cases h; exact .inl ⟨rfl, ‹_›⟩
  refine .inr ⟨‹_›, ?_⟩
  unfold verdictDims at h
  split at h
  · cases h
  split at h
  · cases h
  refine ⟨_, _, ‹_›, ‹_›, ?_⟩
  split at h
  · cases h; exact .inl ‹_›
  refine .inr ⟨‹_›, ?_⟩
  unfold verdictChannels at h
  split at h
  · cases h
  refine ⟨_, ‹_›, ?_⟩
  split at h
  · cases h; exact .inl ‹_›
  refine .inr ⟨‹_›, ?_⟩
  unfold verdictColorspace at h
  split at h
  · cases h
  refine ⟨_, ‹_›, ?_⟩
  split at h
  · cases h; assumption
  · cases h

/-- The validator fails only at a header byte that the host has not placed (R140). -/
theorem headerVerdict_error {s : State} {f : Fault} (h : headerVerdict s = .error f) :
    ∃ x, x < 14 ∧ 22 ≤ s.len ∧ f = .inputUnanswered x ∧ memRead s.inMem x = none := by
  unfold headerVerdict at h
  split at h
  · cases h
  have hl : 22 ≤ s.len := by
    have : ¬ s.len < 22 := ‹_›
    omega
  have one : ∀ a, a < 14 → readIn s a = .error f →
      ∃ x, x < 14 ∧ 22 ≤ s.len ∧ f = .inputUnanswered x ∧ memRead s.inMem x = none := by
    intro a ha h
    rcases readIn_error h with h | h
    · exact ⟨a, ha, hl, h⟩
    · omega
  split at h
  · cases h
    obtain ⟨x, _, h2, h3⟩ := readInBytes_error ‹_› (by omega)
    exact ⟨x, by omega, hl, h3⟩
  split at h
  rotate_left
  · cases h
  unfold verdictDims at h
  split at h
  · cases h
    obtain ⟨x, _, h2, h3⟩ := readU32be_error ‹_› (by omega)
    exact ⟨x, by omega, hl, h3⟩
  split at h
  · cases h
    obtain ⟨x, _, h2, h3⟩ := readU32be_error ‹_› (by omega)
    exact ⟨x, by omega, hl, h3⟩
  split at h
  · cases h
  unfold verdictChannels at h
  split at h
  · cases h; exact one 12 (by omega) ‹_›
  split at h
  · cases h
  unfold verdictColorspace at h
  split at h
  · cases h; exact one 13 (by omega) ‹_›
  split at h <;> cases h

/-- The verdict depends on `len` and on the bytes at offsets 0 to 13 only (R140, R142). -/
theorem headerVerdict_congr {s t : State} (hl : s.len = t.len)
    (h : ∀ x, x < 14 → memRead s.inMem x = memRead t.inMem x) : headerVerdict s = headerVerdict t := by
  unfold headerVerdict verdictDims verdictChannels verdictColorspace
  rw [← hl, readInBytes_congr hl 4 0 (fun x _ _ _ => h x (by omega)),
    readU32be_congr hl 4 (fun x _ _ _ => h x (by omega)),
    readU32be_congr hl 8 (fun x _ _ _ => h x (by omega)),
    readIn_congr hl (fun _ => h 12 (by omega)), readIn_congr hl (fun _ => h 13 (by omega))]

/-- The product of a header that passed fits PIX_W bits (R138, R234). -/
theorem startDecode_total_toNat {s : State} {hd : Header} (h : hd.w.toNat * hd.h.toNat ≤ Config.pixelCeiling) :
    (startDecode hd s).total.toNat = hd.w.toNat * hd.h.toNat :=
  Nat.mod_eq_of_lt (lt_of_le_of_lt h (by decide))

end Sys2Proof.Machine
end

