-- ==== Sys2Proof/Laws/Step.lean ====
section
/-! SUPPORT. What a step can do, said once: the effect of an op and of a fetch, and the inversion of
`step`. Invariants follow from these by cases. -/

namespace Sys2Proof.Machine

open Sys2Proof

/-! ### The meaning of an instruction -/

/-- What an op writes before the shared end of its T_PIXEL: the current pixel, or the run counter
(the table of R163). -/
def applyOp (i : Instr) (s : State) : State :=
  match i with
  | .rgba r g b a => setPx { r := r, g := g, b := b, a := a } s
  | .rgb r g b => setPx { r := r, g := g, b := b, a := s.px.a } s
  | .index idx => setPx (cacheRead s idx) s
  | .diff drF dgF dbF => setPx (addPixel s.px (diffDelta drF) (diffDelta dgF) (diffDelta dbF)) s
  | .luma dgF drdgF dbdgF =>
    setPx (addPixel s.px (lumaOther dgF drdgF) (lumaGreen dgF) (lumaOther dgF dbdgF)) s
  | .run rlF => setRun rlF s

/-- Every instruction answers a next state: its own effect, then the shared end. -/
theorem exec_eq (i : Instr) (s : State) : exec i s = .next (finishOp i.op (applyOp i s)) := by
  cases i <;> rfl

/-- An op writes `px` and `run` and nothing else before the shared end (not for simp: it would loop). -/
theorem applyOp_eq (i : Instr) (s : State) :
    applyOp i s = { s with px := (applyOp i s).px, run := (applyOp i s).run } := by
  cases i <;> rfl

/-! An op leaves every field but `px` and `run`. -/

@[simp] theorem applyOp_inLenW (i : Instr) (s : State) : (applyOp i s).inLenW = s.inLenW := by cases i <;> rfl
@[simp] theorem applyOp_pins (i : Instr) (s : State) : (applyOp i s).pins = s.pins := by cases i <;> rfl
@[simp] theorem applyOp_fsm (i : Instr) (s : State) : (applyOp i s).fsm = s.fsm := by cases i <;> rfl
@[simp] theorem applyOp_errCode (i : Instr) (s : State) : (applyOp i s).errCode = s.errCode := by cases i <;> rfl
@[simp] theorem applyOp_hdrW (i : Instr) (s : State) : (applyOp i s).hdrW = s.hdrW := by cases i <;> rfl
@[simp] theorem applyOp_hdrH (i : Instr) (s : State) : (applyOp i s).hdrH = s.hdrH := by cases i <;> rfl
@[simp] theorem applyOp_srcCh (i : Instr) (s : State) : (applyOp i s).srcCh = s.srcCh := by cases i <;> rfl
@[simp] theorem applyOp_cs (i : Instr) (s : State) : (applyOp i s).cs = s.cs := by cases i <;> rfl
@[simp] theorem applyOp_outCh (i : Instr) (s : State) : (applyOp i s).outCh = s.outCh := by cases i <;> rfl
@[simp] theorem applyOp_total (i : Instr) (s : State) : (applyOp i s).total = s.total := by cases i <;> rfl
@[simp] theorem applyOp_len (i : Instr) (s : State) : (applyOp i s).len = s.len := by cases i <;> rfl
@[simp] theorem applyOp_reqEn (i : Instr) (s : State) : (applyOp i s).reqEn = s.reqEn := by cases i <;> rfl
@[simp] theorem applyOp_req4 (i : Instr) (s : State) : (applyOp i s).req4 = s.req4 := by cases i <;> rfl
@[simp] theorem applyOp_cur (i : Instr) (s : State) : (applyOp i s).cur = s.cur := by cases i <;> rfl
@[simp] theorem applyOp_pix (i : Instr) (s : State) : (applyOp i s).pix = s.pix := by cases i <;> rfl
@[simp] theorem applyOp_cache (i : Instr) (s : State) : (applyOp i s).cache = s.cache := by cases i <;> rfl
@[simp] theorem applyOp_inMem (i : Instr) (s : State) : (applyOp i s).inMem = s.inMem := by cases i <;> rfl
@[simp] theorem applyOp_outMem (i : Instr) (s : State) : (applyOp i s).outMem = s.outMem := by cases i <;> rfl
@[simp] theorem applyOp_outOpen (i : Instr) (s : State) : (applyOp i s).outOpen = s.outOpen := by cases i <;> rfl
@[simp] theorem applyOp_draws (i : Instr) (s : State) : (applyOp i s).draws = s.draws := by cases i <;> rfl

/-- Only RUN writes the run counter (R163). -/
theorem applyOp_run_le {i : Instr} {s : State} (hw : i.wf = true) (hs : s.run.toNat ≤ 61) :
    (applyOp i s).run.toNat ≤ 61 := by
  cases i <;> first | exact hs | exact of_decide_eq_true hw

/-! ### Fetching a chunk -/

theorem fetchChunk_ok {s : State} {bs : List Byte} (h : fetchChunk s = .ok bs) :
    ∃ b0 ops, bs = b0 :: ops ∧ readIn s s.cur = .ok b0 ∧
      readInBytes s (s.cur + 1) (clen (opOf b0) - 1) = .ok ops := by
  unfold fetchChunk at h
  split at h
  · cases h
  · split at h
    · cases h
    · cases h
      exact ⟨_, _, rfl, ‹_›, ‹_›⟩

/-- A fetch at `cur < len - 8` fails only at a byte of IN, below `len - 4`, that the host has not placed (R72). -/
theorem fetchChunk_error {s : State} {f : Fault} (h : fetchChunk s = .error f)
    (hc : s.cur < padStart s) :
    ∃ x, s.cur ≤ x ∧ x < s.cur + 5 ∧ f = .inputUnanswered x ∧ memRead s.inMem x = none := by
  have hlen : s.cur + 8 < s.len := by simp only [padStart, Config.padLen] at hc; omega
  unfold fetchChunk at h
  split at h
  · cases h
    rcases readIn_error ‹_› with h | h
    · exact ⟨_, le_rfl, by omega, h⟩
    · omega
  · rename_i b0 _
    have h5 := clen_le (opOf b0)
    split at h
    · cases h
      obtain ⟨x, h1, h2, h3⟩ := readInBytes_error ‹_› (by omega)
      exact ⟨x, by omega, by omega, h3⟩
    · cases h

/-- What an op fetch does: it runs the well-formed instruction that the bytes at the cursor decode to, or
stops at a byte the host never answers. It never refuses (R106). -/
theorem fetchExec_cases {s : State} (hc : s.cur < padStart s) :
    (∃ i bs, i.wf = true ∧ fetchChunk s = .ok bs ∧ decode bs = .ok (i, []) ∧ fetchExec s = exec i s) ∨
    (∃ x, x < s.len ∧ memRead s.inMem x = none ∧ fetchExec s = .fault (.inputUnanswered x)) := by
  unfold fetchExec
  cases hf : fetchChunk s with
  | error f =>
    obtain ⟨x, _, h2, rfl, h4⟩ := fetchChunk_error hf hc
    refine .inr ⟨x, ?_, h4, rfl⟩
    simp only [padStart, Config.padLen] at hc
    omega
  | ok bs =>
    obtain ⟨b0, ops, rfl, _, hops⟩ := fetchChunk_ok hf
    obtain ⟨i, hd, _, hw⟩ := decodeOp_of_length (readInBytes_length hops)
    exact .inl ⟨i, _, hw, rfl, hd, by simp only [decode, hd]⟩

/-- The bytes of a chunk placed at the cursor are what a fetch gathers. -/
theorem fetchExec_of_placed {s : State} {b0 : Byte} {ops : List Byte} {i : Instr}
    (hl : ops.length = clen (opOf b0) - 1) (hc : s.cur < padStart s)
    (hp : ∀ k (h : k < (b0 :: ops).length), memRead s.inMem (s.cur + k) = some (b0 :: ops)[k])
    (hd : decode (b0 :: ops) = .ok (i, [])) : fetchExec s = exec i s := by
  have hlen : s.cur + 8 < s.len := by simp only [padStart, Config.padLen] at hc; omega
  have h5 := clen_le (opOf b0)
  have h1 := clen_pos (opOf b0)
  have h0 : readIn s s.cur = .ok b0 := readIn_ok_iff.2 ⟨by omega, hp 0 (by simp)⟩
  have hb : readInBytes s (s.cur + 1) (clen (opOf b0) - 1) = .ok ops := by
    rw [← hl]
    refine readInBytes_of_placed ops _ (fun k h => ?_) (by omega)
    exact (congrArg (memRead s.inMem) (by omega)).trans (hp (k + 1) (by simpa using h))
  simp only [fetchExec, fetchChunk, h0, hb, hd]

/-! ### The step -/

theorem step_reset {s : State} (hr : s.pins.rst = true) : step s = .next (tReset s) := by
  simp [step, transition, hr]

theorem step_start {s : State} (hr : s.pins.rst = false) (hs : s.pins.start = true)
    (hf : s.fsm = .idle ∨ s.fsm = .done ∨ s.fsm = .error) : step s = .next (tStart s) := by
  rcases hf with hf | hf | hf <;> simp [step, transition, hr, hs, hf]

theorem step_hold {s : State} (hr : s.pins.rst = false) (hs : s.pins.start = false)
    (hf : s.fsm = .idle ∨ s.fsm = .done ∨ s.fsm = .error) : step s = .next s := by
  rcases hf with hf | hf | hf <;> simp [step, transition, hr, hs, hf, tHold]

theorem step_validate {s : State} (hr : s.pins.rst = false) (hf : s.fsm = .validate) : step s = tValidate s := by
  simp [step, transition, hr, hf]

theorem step_stall {s : State} (hr : s.pins.rst = false) (hf : s.fsm = .decode) (ho : s.pins.outReady = false) :
    step s = .next s := by
  simp [step, transition, tPixel, hr, hf, ho]

theorem step_run {s : State} (hr : s.pins.rst = false) (hf : s.fsm = .decode) (ho : s.pins.outReady = true)
    (hn : 0 < s.run.toNat) : step s = .next (consumeRun s) := by
  simp only [step, transition, tPixel, hr, hf, ho, Bool.false_eq_true, Bool.true_eq_false, if_false, if_pos hn]

theorem step_fetch {s : State} (hr : s.pins.rst = false) (hf : s.fsm = .decode) (ho : s.pins.outReady = true)
    (hn : ¬ 0 < s.run.toNat) (hc : s.cur < padStart s) : step s = fetchExec s := by
  simp only [step, transition, tPixel, hr, hf, ho, Bool.false_eq_true, Bool.true_eq_false, if_false, if_neg hn,
    if_pos hc]

theorem step_exhausted {s : State} (hr : s.pins.rst = false) (hf : s.fsm = .decode) (ho : s.pins.outReady = true)
    (hn : ¬ 0 < s.run.toNat) (hc : ¬ s.cur < padStart s) : step s = .next (emitPixel s) := by
  simp only [step, transition, tPixel, hr, hf, ho, Bool.false_eq_true, Bool.true_eq_false, if_false, if_neg hn,
    if_neg hc]

/-- A fetch depends on `len`, the cursor and the up to five bytes of IN at the cursor (R72). -/
theorem fetchChunk_congr {s t : State} (hl : s.len = t.len) (hc : s.cur = t.cur)
    (h : ∀ x, s.cur ≤ x → x < s.cur + 5 → x < s.len → memRead s.inMem x = memRead t.inMem x) :
    fetchChunk s = fetchChunk t := by
  unfold fetchChunk
  rw [← hc, readIn_congr hl (h _ le_rfl (by omega))]
  split
  · rfl
  · rename_i b0 _
    have h5 := clen_le (opOf b0)
    have h1 := clen_pos (opOf b0)
    rw [readInBytes_congr hl _ _ (fun x _ _ h3 => h x (by omega) (by omega) h3)]

/-- Everything a step that answers a next state can have done (R30, R160). -/
theorem step_cases {s t : State} (h : step s = .next t) :
    (s.pins.rst = true ∧ t = tReset s) ∨
    (s.pins.rst = false ∧ (s.fsm = .idle ∨ s.fsm = .done ∨ s.fsm = .error) ∧ s.pins.start = true ∧ t = tStart s) ∨
    (s.pins.rst = false ∧ (s.fsm = .idle ∨ s.fsm = .done ∨ s.fsm = .error) ∧ s.pins.start = false ∧ t = s) ∨
    (s.pins.rst = false ∧ s.fsm = .validate ∧ ∃ e, headerVerdict s = .ok (.error e) ∧ t = raiseErr e s) ∨
    (s.pins.rst = false ∧ s.fsm = .validate ∧ ∃ hd, headerVerdict s = .ok (.ok hd) ∧ t = startDecode hd s) ∨
    (s.pins.rst = false ∧ s.fsm = .decode ∧ s.pins.outReady = false ∧ t = s) ∨
    (s.pins.rst = false ∧ s.fsm = .decode ∧ s.pins.outReady = true ∧ 0 < s.run.toNat ∧ t = consumeRun s) ∨
    (s.pins.rst = false ∧ s.fsm = .decode ∧ s.pins.outReady = true ∧ s.run.toNat = 0 ∧
      s.cur < padStart s ∧ ∃ i : Instr, i.wf = true ∧ t = finishOp i.op (applyOp i s)) ∨
    (s.pins.rst = false ∧ s.fsm = .decode ∧ s.pins.outReady = true ∧ s.run.toNat = 0 ∧
      ¬ s.cur < padStart s ∧ t = emitPixel s) := by
  unfold step transition at h
  cases hr : s.pins.rst
  · simp only [hr, Bool.false_eq_true, if_false] at h
    have hold : (s.fsm = .idle ∨ s.fsm = .done ∨ s.fsm = .error) →
        (if s.pins.start then Host.Outcome.next (tStart s) else .next (tHold s)) =
          (.next t : Host.Outcome State Fault Refusal) →
        (s.pins.start = true ∧ t = tStart s) ∨ (s.pins.start = false ∧ t = s) := by
      intro _ h
      cases hs : s.pins.start <;> simp only [hs, if_true, Bool.false_eq_true, if_false] at h <;> cases h
      · exact .inr ⟨rfl, rfl⟩
      · exact .inl ⟨rfl, rfl⟩
    cases hf : s.fsm <;> simp only [hf] at h
    · rcases hold (by simp [hf]) h with ⟨h1, h2⟩ | ⟨h1, h2⟩ <;> simp [*]
    · unfold tValidate at h
      split at h <;> cases h
      · simp_all
      · simp_all
    · unfold tPixel at h
      cases ho : s.pins.outReady
      · simp only [ho, if_true] at h; cases h; simp
      · simp only [ho, Bool.true_eq_false, if_false] at h
        split at h
        · cases h; simp_all
        · split at h
          · rename_i hrun hcur
            rcases fetchExec_cases hcur with ⟨i, bs, hw, _, _, he⟩ | ⟨x, _, _, he⟩
            · rw [he, exec_eq] at h
              cases h
              have : s.run.toNat = 0 := by omega
              simp only [this, hcur, true_and, not_true_eq_false, false_and, or_false, reduceCtorEq, false_or,
                Nat.lt_irrefl]
              exact ⟨i, hw, rfl⟩
            · rw [he] at h; cases h
          · cases h
            have : s.run.toNat = 0 := by omega
            simp_all
    · rcases hold (by simp [hf]) h with ⟨h1, h2⟩ | ⟨h1, h2⟩ <;> simp [*]
    · rcases hold (by simp [hf]) h with ⟨h1, h2⟩ | ⟨h1, h2⟩ <;> simp [*]
  · simp only [hr, if_true] at h
    cases h
    simp

end Sys2Proof.Machine
end

