-- ==== Sys2Proof/Laws/Host.lean ====
section
/-! SUPPORT. What the host moves do, and what a host read may rely on, each said once. -/

namespace Sys2Proof.Machine

open Sys2Proof

/-- A host move that is accepted writes the pins, IN, or OUT with the open ranges, and nothing else. -/
theorem hostMove_next {m : HostMove} {s t : State} (h : hostMove m s = .next t) :
    (∃ p, m = .drive p ∧ p.inLen < 2 ^ s.inLenW ∧ t = { s with pins := p }) ∨
    (∃ file, m = .placeIn file ∧ busy s = false ∧ file.length < 2 ^ s.inLenW ∧
      t = { s with inMem := memOfBytes 0 file }) ∨
    (∃ a v, m = .writeOut a v ∧ imageMayHold s a = false ∧
      t = { s with outMem := memWrite s.outMem a v, outOpen := offsetsRemove a (a + 1) s.outOpen }) := by
  cases m with
  | drive p =>
    simp only [hostMove] at h
    split at h <;> cases h
    exact .inl ⟨p, rfl, by omega, rfl⟩
  | placeIn file =>
    simp only [hostMove] at h
    split at h
    · cases h
    · split at h <;> cases h
      exact .inr (.inl ⟨file, rfl, by simpa using ‹¬ busy s = true›, by omega, rfl⟩)
  | writeOut a v =>
    simp only [hostMove] at h
    split at h <;> cases h
    exact .inr (.inr ⟨a, v, rfl, by simpa using ‹¬ imageMayHold s a = true›, rfl⟩)

/-- A host write of OUT is refused exactly on the image of the decode under way (R324). -/
theorem hostMove_writeOut_refused_iff {s : State} {a : Nat} {v : Byte} :
    hostMove (.writeOut a v) s = .refused .outputWrittenWhileBusy ↔ imageMayHold s a = true := by
  simp only [hostMove]
  split <;> simp [*]

/-- Outside busy and DONE the host is promised every known byte that is not open (R284, U5). -/
theorem outPromised_idle_error {s : State} (h : s.fsm = .idle ∨ s.fsm = .error) (a : Nat) :
    outPromised s a = if offsetIn s.outOpen a = true then none else memRead s.outMem a := by
  rcases h with h | h <;> simp [outPromised, busy, done, h]

/-- In DONE the host is promised the image besides (R83 d). -/
theorem outPromised_done {s : State} (h : s.fsm = .done) (a : Nat) :
    outPromised s a =
      if a < s.total.toNat * s.outCh.toNat then memRead s.outMem a
      else if offsetIn s.outOpen a = true then none else memRead s.outMem a := by
  simp [outPromised, busy, done, h]

end Sys2Proof.Machine
end

