-- ==== Sys2Proof/Laws/PerInstr.lean ====
section
/-! SUPPORT. The statements made once for every instruction, one lemma per constructor. -/

namespace Sys2Proof.Laws.EncodeShape

open Sys2Proof

/-- The encoding has the length of its op (R104), and its first byte is an op byte that the dispatch of
R105 sends back to that op. -/
def Statement (i : Instr) : Prop :=
  i.wf = true → (encode i).length = clen i.op ∧ (encode i).head?.map opOf = some i.op

theorem rgba (r g b a : Byte) : Statement (.rgba r g b a) := fun _ => ⟨rfl, by simp [encode, Instr.op, opOf]⟩

theorem rgb (r g b : Byte) : Statement (.rgb r g b) := fun _ => ⟨rfl, by simp [encode, Instr.op, opOf]⟩

theorem index (idx : BitVec 6) : Statement (.index idx) := by
  revert idx; unfold Statement; decide

theorem diff (drF dgF dbF : BitVec 2) : Statement (.diff drF dgF dbF) := by
  revert drF dgF dbF; unfold Statement; decide

theorem luma (dgF : BitVec 6) (drdgF dbdgF : BitVec 4) : Statement (.luma dgF drdgF dbdgF) := by
  have h : ∀ f : BitVec 6, opOf (0b10#2 ++ f) = .luma := by decide
  exact fun _ => ⟨rfl, congrArg some (h dgF)⟩

theorem run (rlF : BitVec 6) : Statement (.run rlF) := by
  revert rlF; unfold Statement; decide

end Sys2Proof.Laws.EncodeShape
end

