-- ==== Sys2Proof/Laws/Run.lean ====
section
/-! SUPPORT. Comparing the steps of two states, and runs of several steps. -/

namespace Sys2Proof.Safety

open Sys2Proof Sys2Proof.Machine

/-! ### Two states, one a change of the other -/

/-- A change `g` of the state that commutes with every op commutes with `exec`. -/
theorem exec_map (g : State → State) (i : Instr) (s : State)
    (h : finishOp i.op (applyOp i (g s)) = g (finishOp i.op (applyOp i s))) :
    exec i (g s) = mapNext g (exec i s) := by
  rw [exec_eq, exec_eq, h]
  rfl

theorem fetchExec_map (g : State → State) (s : State) (hf : fetchChunk (g s) = fetchChunk s)
    (h : ∀ i : Instr, finishOp i.op (applyOp i (g s)) = g (finishOp i.op (applyOp i s))) :
    fetchExec (g s) = mapNext g (fetchExec s) := by
  unfold fetchExec
  rw [hf]
  split
  · rfl
  · split
    · exact exec_map g _ s (h _)
    · rfl

/-- A change `g` that keeps what decides a step (`fsm`, `rst`, `out_ready`, `run`, `cur`, `len`, and `start` unless
busy), keeps what the step reads of IN, and commutes with every transition, commutes with `step`. -/
theorem step_map (g : State → State) (s : State)
    (hfsm : (g s).fsm = s.fsm) (hrst : (g s).pins.rst = s.pins.rst)
    (hout : (g s).pins.outReady = s.pins.outReady) (hrun : (g s).run = s.run) (hcur : (g s).cur = s.cur)
    (hlen : (g s).len = s.len) (hstart : (g s).pins.start = s.pins.start ∨ busy s = true)
    (hv : s.fsm = .validate → headerVerdict (g s) = headerVerdict s)
    (hf : s.fsm = .decode → ¬ 0 < s.run.toNat → s.cur < padStart s → fetchChunk (g s) = fetchChunk s)
    (creset : tReset (g s) = g (tReset s)) (cstart : busy s = false → tStart (g s) = g (tStart s))
    (craise : ∀ e, raiseErr e (g s) = g (raiseErr e s)) (cdecode : ∀ hd, startDecode hd (g s) = g (startDecode hd s))
    (crun : consumeRun (g s) = g (consumeRun s)) (cemit : emitPixel (g s) = g (emitPixel s))
    (cop : ∀ i : Instr, finishOp i.op (applyOp i (g s)) = g (finishOp i.op (applyOp i s))) :
    step (g s) = mapNext g (step s) := by
  cases hr : s.pins.rst
  · have hr' := hrst.trans hr
    by_cases hb : busy s = true
    · simp only [busy, decide_eq_true_eq] at hb
      rcases hb with hb | hb
      · rw [step_validate hr hb, step_validate hr' (hfsm.trans hb)]
        unfold tValidate
        rw [hv hb]
        split <;> simp [mapNext, craise, cdecode]
      · have hb' := hfsm.trans hb
        cases ho : s.pins.outReady
        · rw [step_stall hr hb ho, step_stall hr' hb' (hout.trans ho)]
          rfl
        · have ho' := hout.trans ho
          have hp : padStart (g s) = padStart s := by simp [padStart, hlen]
          by_cases hn : 0 < s.run.toNat
          · rw [step_run hr hb ho hn, step_run hr' hb' ho' (by rwa [hrun]), crun]
            rfl
          · by_cases hc : s.cur < padStart s
            · rw [step_fetch hr hb ho hn hc, step_fetch hr' hb' ho' (by rwa [hrun]) (by rwa [hcur, hp])]
              exact fetchExec_map g s (hf hb hn hc) cop
            · rw [step_exhausted hr hb ho hn hc,
                step_exhausted hr' hb' ho' (by rwa [hrun]) (by rwa [hcur, hp]), cemit]
              rfl
    · have hx : s.fsm = .idle ∨ s.fsm = .done ∨ s.fsm = .error := by
        cases h : s.fsm <;> simp_all [busy]
      have hst : (g s).pins.start = s.pins.start := by tauto
      cases hs : s.pins.start
      · rw [step_hold hr hs hx, step_hold hr' (hst.trans hs) (by rwa [hfsm])]
        rfl
      · rw [step_start hr hs hx, step_start hr' (hst.trans hs) (by rwa [hfsm]), cstart (by simpa using hb)]
        rfl
  · rw [step_reset hr, step_reset (hrst.trans hr), creset]
    rfl

/-! ### Runs -/

theorem run_succ_next {s t : State} (k : Nat) (h : step s = .next t) : core.run (k + 1) s = core.run k t := by
  have h' : core.step s = .next t := h
  simp only [Host.Core.run, h']

theorem run_succ_fault {s : State} (k : Nat) {r : Fault} (h : step s = .fault r) : core.run (k + 1) s = .fault r := by
  have h' : core.step s = .fault r := h
  simp only [Host.Core.run, h']

theorem run_succ_refused {s : State} (k : Nat) {r : Refusal} (h : step s = .refused r) :
    core.run (k + 1) s = .refused r := by
  have h' : core.step s = .refused r := h
  simp only [Host.Core.run, h']

/-- A run whose first `k` steps answer `t` goes on from `t`. -/
theorem run_add {s t : State} {k : Nat} (j : Nat) (h : core.run k s = .next t) :
    core.run (k + j) s = core.run j t := by
  induction k generalizing s with
  | zero =>
    cases h
    rw [Nat.zero_add]
  | succ k ih =>
    rw [Nat.succ_add]
    cases hs : step s with
    | next u => rw [run_succ_next k hs] at h; rw [run_succ_next _ hs]; exact ih h
    | fault r => rw [run_succ_fault k hs] at h; cases h
    | refused r => rw [run_succ_refused k hs] at h; cases h

end Sys2Proof.Safety
end

