-- ==== Sys2Proof/Laws/Pixel.lean ====
section
/-! SUPPORT. What the end of a T_PIXEL does, in the terms of the claims (`emits`, `cachesPixel`, `chunkEnds`): one lemma
for each of the three branches and one for every op. -/

namespace Sys2Proof.Safety

open Sys2Proof Sys2Proof.Machine

/-- The end of a T_PIXEL emits the current pixel, whatever the branch wrote to `px`, `run`, `cur` and `cache` before. -/
theorem emits_emitPixel {s u : State} (hpix : u.pix = s.pix) (hch : u.outCh = s.outCh) (hf : u.fsm = s.fsm)
    (ht : u.total = s.total) (hm : u.outMem = s.outMem) : emits s (emitPixel u) := by
  have ha : (portWrite u).addr.toNat = outAddress s := by simp [outAddress, portWrite, hpix, hch]
  have hr : ∀ x, memRead (emitPixel u).outMem x = _ := fun x => memRead_acceptWrite u u.outMem x
  refine ⟨by simp [emitPixel, hpix], by simp [emitPixel, hpix, ht, hf], ?_, ?_, ?_, ?_, ?_⟩
  · rw [hr, if_pos ha.symm]; rfl
  · rw [hr, ha, if_neg (by omega), if_pos rfl]; rfl
  · rw [hr, ha, if_neg (by omega), if_neg (by omega), if_pos rfl]; rfl
  · intro h4
    rw [hr, ha, if_neg (by omega), if_neg (by omega), if_neg (by omega), if_pos ⟨hch.trans h4, rfl⟩]; rfl
  · intro x hx
    have hb : 3 ≤ pixelBytes s := by unfold pixelBytes; split <;> omega
    rw [hr, ha, if_neg (by omega), if_neg (by omega), if_neg (by omega), if_neg, hm]
    rintro ⟨h4, rfl⟩
    have : pixelBytes s = 4 := by simp [pixelBytes, ← hch, h4]
    omega

/-- Every op ends its T_PIXEL so: the cursor past the chunk, the pixel cached and emitted (R160). -/
theorem chunkEnds_finishOp (i : Instr) (s : State) : chunkEnds (clen i.op) s (finishOp i.op (applyOp i s)) := by
  refine ⟨by simp [finishOp_eq, lenBits], fun k hk => ?_, ?_⟩
  · simp only [finishOp_eq, Vector.getElem_set, applyOp_cache, eq_comm]
  · refine emits_emitPixel ?_ ?_ ?_ ?_ ?_ <;> simp

/-- A pending run is consumed (R161). -/
theorem emits_consumeRun (s : State) : emits s (consumeRun s) := emits_emitPixel rfl rfl rfl rfl rfl

/-- `cur < len - 8` over the integers is `cur + 8 < len`. -/
theorem lt_padStart_iff {s : State} : s.cur < padStart s ↔ s.cur + 8 < s.len := by
  simp only [padStart, Config.padLen]
  omega

/-! The counters do not wrap where the rules use them (R234). -/

theorem run_pred_toNat {n : BitVec Config.runW} (h : 0 < n.toNat) : (n - 1#_).toNat = n.toNat - 1 := by
  have hn : n.toNat < 64 := n.isLt
  rw [BitVec.toNat_sub, BitVec.toNat_ofNat]
  simp only [Config.runW]
  omega

theorem pix_succ_toNat {p total : BitVec Config.pixW} (h : p.toNat < total.toNat) : (p + 1#_).toNat = p.toNat + 1 := by
  have ht := pix_lt total
  rw [BitVec.toNat_add, BitVec.toNat_ofNat]
  simp only [pixW_eq]
  omega

/-- The control state after an emitted pixel is the one before it, or DONE. -/
theorem emitPixel_fsm (s : State) : (emitPixel s).fsm = s.fsm ∨ (emitPixel s).fsm = .done := by
  simp only [emitPixel_eq]
  split
  · exact .inr rfl
  · exact .inl rfl

theorem consumeRun_fsm (s : State) : (consumeRun s).fsm = s.fsm ∨ (consumeRun s).fsm = .done :=
  emitPixel_fsm (setRun (s.run - 1#_) s)

theorem finishOp_fsm (op : Op) (s : State) : (finishOp op s).fsm = s.fsm ∨ (finishOp op s).fsm = .done :=
  emitPixel_fsm (updateCache (advanceCur (clen op) s))

/-- What a step of a decode that the host lets run can have done, by branch (R160). -/
theorem decoding_step_cases {s t : State} (hd : decoding s) (h : step s = .next t) :
    (0 < s.run.toNat ∧ ¬ readsChunk s ∧ t = consumeRun s) ∨
    (readsChunk s ∧ ∃ i : Instr, i.wf = true ∧ t = finishOp i.op (applyOp i s)) ∨
    (s.run.toNat = 0 ∧ ¬ readsChunk s ∧ t = emitPixel s) := by
  obtain ⟨hf, hr, ho⟩ := hd
  by_cases hn : 0 < s.run.toNat
  · rw [step_run hr hf ho hn] at h
    cases h
    exact .inl ⟨hn, fun hc => by have := hc.1; omega, rfl⟩
  · by_cases hc : s.cur < padStart s
    · rw [step_fetch hr hf ho hn hc] at h
      rcases fetchExec_cases hc with ⟨i, _, hw, _, _, he⟩ | ⟨_, _, _, he⟩
      · rw [he, exec_eq] at h
        cases h
        exact .inr (.inl ⟨⟨by omega, lt_padStart_iff.1 hc⟩, i, hw, rfl⟩)
      · rw [he] at h; cases h
    · rw [step_exhausted hr hf ho hn hc] at h
      cases h
      exact .inr (.inr ⟨by omega, fun hx => hc (lt_padStart_iff.2 hx.2), rfl⟩)

end Sys2Proof.Safety
end

