-- ==== Sys2Proof/Tests/Slice0.lean ====
section
/-! SUPPORT. Tests: the bytes and the single-step results of spec/95_test_vectors.md, and for every obligation with
hypotheses a state that meets them. Expected values are the spec's, not the model's. -/

namespace Sys2Proof.Tests

open Sys2Proof Sys2Proof.Machine Sys2Proof.Safety

/-! ### Well-formedness: a RUN field is 0..61 (R110); the other fields have no bound but their width -/

theorem test_wf_run_62_refused : (Instr.run 62#6).wf = false := by decide
theorem test_wf_run_63_refused : (Instr.run 63#6).wf = false := by decide
theorem test_wf_run_61_accepted : (Instr.run 61#6).wf = true := by decide

/-! ### Decoding: words written out from R103 -/

/-- `FF 0A 14 1E 80` (L2.2). -/
theorem test_decode_rgba : decodeTableWord 40 0x801E140AFF = some (.rgba 10#8 20#8 30#8 128#8) := by decide
/-- `FE 01 02 03` (L2.2). -/
theorem test_decode_rgb : decodeTableWord 32 0x030201FE = some (.rgb 1#8 2#8 3#8) := by decide
/-- `0B`, `00 001011` (L1.8). -/
theorem test_decode_index : decodeTableWord 8 0b00001011 = some (.index 11#6) := by decide
/-- `79`, `01 11 10 01`: deltas +1, 0, -1 (L1.6). -/
theorem test_decode_diff : decodeTableWord 8 0b01111001 = some (.diff 3#2 2#2 1#2) := by decide
/-- `9F 0F`, `10 011111 0000 1111`: dg -1, red nibble 0, blue nibble 15 (L2.4). -/
theorem test_decode_luma : decodeTableWord 16 0b0000111110011111 = some (.luma 31#6 0#4 15#4) := by decide
/-- `C2`, `11 000010`: field 2 (L1.4). -/
theorem test_decode_run : decodeTableWord 8 0b11000010 = some (.run 2#6) := by decide
/-- The boundaries of L2.9: 00, 3F, 40, 7F, 80, BF, C0, FD, FE, FF. -/
theorem test_dispatch_boundaries :
    [0x00#8, 0x3F#8, 0x40#8, 0x7F#8, 0x80#8, 0xBF#8, 0xC0#8, 0xFD#8, 0xFE#8, 0xFF#8].map opOf =
      [.index, .index, .diff, .diff, .luma, .luma, .run, .run, .rgb, .rgba] := by decide
theorem test_decode_no_bytes : decode [] = .error .noOpByte := by rfl
theorem test_decode_short_rgba : decode [0xFF#8, 1#8, 2#8, 3#8] = .error (.missingOperands .rgba) := by rfl
theorem test_decode_short_luma : decode [0xA0#8] = .error (.missingOperands .luma) := by rfl
theorem test_encode_luma : encode (.luma 31#6 0#4 15#4) = [0x9F#8, 0x0F#8] := by decide
theorem test_encode_diff : encode (.diff 3#2 2#2 1#2) = [0x79#8] := by decide

/-! ### Small states -/

def pixel (r g b a : Nat) : Pixel :=
  { r := BitVec.ofNat 8 r, g := BitVec.ofNat 8 g, b := BitVec.ofNat 8 b, a := BitVec.ofNat 8 a }

def be32 (n : Nat) : List Byte :=
  [BitVec.ofNat 8 (n / 16777216), BitVec.ofNat 8 (n / 65536), BitVec.ofNat 8 (n / 256), BitVec.ofNat 8 n]

/-- `.header w, h, ch, cs` (R115). -/
def header (w h ch cs : Nat) : List Byte :=
  [0x71#8, 0x6F#8, 0x69#8, 0x66#8] ++ be32 w ++ be32 h ++ [BitVec.ofNat 8 ch, BitVec.ofNat 8 cs]

/-- `.pad` (R115). -/
def pad : List Byte := [0#8, 0#8, 0#8, 0#8, 0#8, 0#8, 0#8, 1#8]

/-- In VALIDATE, a file of the given bytes placed and started with the header's own channel count. -/
def validating (file : List Byte) : State :=
  { State.reset with
    fsm := .validate
    len := file.length
    inMem := memOfBytes 0 file }

/-- The standard start state of 95_test_vectors.md: a decode of `w` by 1 pixels with `ch` output channels, the
bytes `chunks` in the chunk region. -/
def decodeOfBytes (chunks : List Byte) (w ch : Nat) : State :=
  { validating (header w 1 ch 0 ++ chunks ++ pad) with
    fsm := .decode
    hdrW := BitVec.ofNat _ w
    hdrH := 1#_
    srcCh := BitVec.ofNat _ ch
    outCh := BitVec.ofNat _ ch
    total := BitVec.ofNat _ w
    px := pixel 0 0 0 255
    cur := 14 }

/-- A decode with `p` as the previous pixel. -/
def withPx (p : Pixel) (s : State) : State := { s with px := p }

/-- The next state of an outcome; the state right after reset where there is none. -/
def nextOf : Host.Outcome State Fault Refusal → State
  | .next s => s
  | .fault _ => State.reset
  | .refused _ => State.reset

def after (s : State) : State := nextOf (step s)

/-! ### One step of each op: the vectors of L2.2 to L2.7 -/

/-- `FF 0A 14 1E 80`: (10,20,30,128), cursor + 5, slot 20. -/
theorem test_rgba :
    let t := after (decodeOfBytes [0xFF#8, 0x0A#8, 0x14#8, 0x1E#8, 0x80#8] 4 4)
    t.px = pixel 10 20 30 128 ∧ t.cur = 19 ∧ t.cache[20] = pixel 10 20 30 128 ∧ t.pix = 1#_ := by decide
/-- P4: an op byte at `len - 9` reads its operands from the padding; cursor 19. -/
theorem test_rgba_from_the_padding :
    let t := after (decodeOfBytes [0xFF#8] 2 4)
    t.px = pixel 0 0 0 0 ∧ t.cur = 19 ∧
      t.outMem = [(0, 0#8), (1, 0#8), (2, 0#8), (3, 0#8)] := by decide
/-- `FE 01 02 03` after (9,9,9,0): alpha kept, slot 34. -/
theorem test_rgb :
    let t := after (withPx (pixel 9 9 9 0) (decodeOfBytes [0xFE#8, 1#8, 2#8, 3#8] 4 3))
    t.px = pixel 1 2 3 0 ∧ t.cur = 18 ∧ t.cache[34] = pixel 1 2 3 0 ∧
      t.outMem = [(0, 1#8), (1, 2#8), (2, 3#8)] := by decide
/-- L2.9: RGB at `len - 9` reads zeros from the padding. -/
theorem test_rgb_from_the_padding :
    let t := after (decodeOfBytes [0xFE#8] 2 3)
    t.px = pixel 0 0 0 255 ∧ t.cur = 18 ∧ t.cache[53] = pixel 0 0 0 255 := by decide
/-- The last step of `FF 01 02 03 04 0E`: INDEX 14 gives (1,2,3,4) (P6). -/
theorem test_index :
    let s := decodeOfBytes [0x0E#8] 4 4
    let t := after { s with cache := s.cache.set 14 (pixel 1 2 3 4) }
    t.px = pixel 1 2 3 4 ∧ t.cur = 15 ∧ t.cache[14] = pixel 1 2 3 4 := by decide
/-- P7: INDEX 5 of an unwritten slot gives (0,0,0,0) and erases slot 0. -/
theorem test_index_unwritten_erases_slot_0 :
    let s := decodeOfBytes [0x05#8] 4 4
    let t := after { s with cache := s.cache.set 0 (pixel 0 0 0 64) }
    t.px = pixel 0 0 0 0 ∧ t.cache[0] = pixel 0 0 0 0 := by decide
/-- `79` after (10,10,10,255): (11,10,9,255), slot 7 (L1.6). -/
theorem test_diff :
    let t := after (withPx (pixel 10 10 10 255) (decodeOfBytes [0x79#8] 4 4))
    t.px = pixel 11 10 9 255 ∧ t.cur = 15 ∧ t.cache[7] = pixel 11 10 9 255 := by decide
/-- `40` after (0,1,255,7) wraps: (254,255,253,7), slot 45. -/
theorem test_diff_wraps :
    let t := after (withPx (pixel 0 1 255 7) (decodeOfBytes [0x40#8] 4 4))
    t.px = pixel 254 255 253 7 ∧ t.cache[45] = pixel 254 255 253 7 := by decide
/-- `9F 0F` after (100,100,100,255): (91,99,106,255), slot 27; the nibble order shows. -/
theorem test_luma :
    let t := after (withPx (pixel 100 100 100 255) (decodeOfBytes [0x9F#8, 0x0F#8] 4 4))
    t.px = pixel 91 99 106 255 ∧ t.cur = 16 ∧ t.cache[27] = pixel 91 99 106 255 := by decide
/-- `80 00` after (0,0,0,9) wraps: (216,224,216,9), slot 51. -/
theorem test_luma_wraps :
    let t := after (withPx (pixel 0 0 0 9) (decodeOfBytes [0x80#8, 0x00#8] 4 4))
    t.px = pixel 216 224 216 9 ∧ t.cache[51] = pixel 216 224 216 9 := by decide
/-- `C2` after (10,20,30,255): run 2, pixel kept, slot 9 (P1). -/
theorem test_run :
    let t := after (withPx (pixel 10 20 30 255) (decodeOfBytes [0xC2#8] 4 4))
    t.run = 2#6 ∧ t.px = pixel 10 20 30 255 ∧ t.cache[9] = pixel 10 20 30 255 ∧ t.fsm = .decode := by decide
/-- A run cut short by `total`: DONE with run 61 left (L2.7). -/
theorem test_run_cut_short_by_total :
    let t := after (decodeOfBytes [0xFD#8] 1 4)
    t.run = 61#6 ∧ t.fsm = .done ∧ done t = true ∧ busy t = false := by decide

/-! ### The other T_PIXELs, the control state, the header -/

/-- Run consumption at `cur = len - 8` (L2.7): nothing read, run one less. -/
theorem test_run_consumption :
    let t := after { decodeOfBytes [] 3 4 with run := 2#_, inMem := [] }
    t.run = 1#6 ∧ t.cur = 14 ∧ t.pix = 1#_ ∧ t.cache = (decodeOfBytes [] 3 4).cache := by decide
/-- P8: the exhausted branch emits the start pixel, three bytes of it. -/
theorem test_exhausted :
    let t := after (decodeOfBytes [] 3 3)
    t.cur = 14 ∧ t.outMem = [(0, 0#8), (1, 0#8), (2, 0#8)] ∧ t.pix = 1#_ := by decide
/-- The port for pixel 1 of (10,20,30,255): 0xFF1E140A, offset 3 and 0111, or 4 and 1111 (L2.9). -/
theorem test_output_port :
    portWrite { withPx (pixel 10 20 30 255) (decodeOfBytes [] 4 3) with pix := 1#_ } =
      { addr := 3#31, wdata := 0xFF1E140A#32, be := 0b0111#4 } ∧
    portWrite { withPx (pixel 10 20 30 255) (decodeOfBytes [] 4 4) with pix := 1#_ } =
      { addr := 4#31, wdata := 0xFF1E140A#32, be := 0b1111#4 } := by decide
/-- The hashes of L2.8. -/
theorem test_hash :
    [pixel 0 0 0 255, pixel 255 255 255 255, pixel 21 0 0 0, pixel 0 0 0 64, pixel 10 20 30 128].map pixelHash =
      [53#6, 38#6, 63#6, 0#6, 20#6] := by decide
/-- The widths of R6 at the default ceiling, and its formulas at another: `2^29` pixels take 30 bits, and `2^31` bytes 31. -/
theorem test_widths :
    Config.pixW = 29 ∧ Config.outAddrW = 31 ∧ Config.ceilLog2 (2 ^ 29 + 1) = 30 ∧ Config.ceilLog2 (4 * 2 ^ 29) = 31 := by
  decide

/-- A block of another IN_LEN_W (R6): with 5 bits, a cursor that reaches 31 is held, and `in_len` 32 cannot be driven. -/
theorem test_other_in_len_w :
    let s := { State.reset with inLenW := 5 }
    (advanceCur 5 { s with cur := 26 }).cur = 31 ∧
    (after { s with pins := { s.pins with start := true, inLen := 31 } }).len = 31 ∧
    hostMove (.drive { s.pins with inLen := 32 }) s = .refused .inputTooLong := ⟨by decide, by decide, rfl⟩

/-- T_START from IDLE with `in_len = 22` (L2.10). -/
theorem test_start :
    let t := after { State.reset with pins := { State.reset.pins with start := true, inLen := 22 } }
    t.fsm = .validate ∧ busy t = true ∧ t.len = 22 := by decide
/-- T_START leaves ERROR with `err_code` cleared (L2.10). -/
theorem test_start_clears_the_error :
    let t := after { State.reset with fsm := .error, errCode := 3#_, pins := { State.reset.pins with start := true } }
    t.fsm = .validate ∧ t.errCode = 0#3 := by decide
/-- `start` and `rst` together: reset wins (L2.10). -/
theorem test_reset_wins :
    let t := after { decodeOfBytes [0xC2#8] 4 4 with pins := { State.reset.pins with start := true, rst := true } }
    t.fsm = .idle ∧ t.hdrW = 0#32 := by decide

/-- The code that T_VALIDATE raises on a file; 0 where it starts the decode. -/
def verdictOf (file : List Byte) : BitVec 3 := (after (validating file)).errCode

/-- P2's header starts a decode: S4 to S7 are 5, 1, 3, 1. -/
theorem test_good_header :
    let t := after (validating (header 5 1 3 1 ++ [0x79#8] ++ pad))
    status t = { busy := true, done := false, error := false, errCode := 0#3, imgWidth := 5#32, imgHeight := 1#32,
                 imgChannels := 3#3, imgColorspace := 1#4 } ∧
    t.px = pixel 0 0 0 255 ∧ t.cur = 14 ∧ t.total = 5#_ := by decide
/-- Length 21 and the empty buffer: 1 (L1.1). -/
theorem test_too_short : verdictOf (header 2 2 4 0 ++ [0#8, 0#8, 0#8, 0#8, 0#8, 0#8, 0#8]) = 1#3 ∧ verdictOf [] = 1#3 := by
  decide
/-- "QOIF": 2 (L1.2). -/
theorem test_bad_magic :
    verdictOf ([0x51#8, 0x4F#8, 0x49#8, 0x46#8] ++ be32 1 ++ be32 1 ++ [4#8, 0#8] ++ pad) = 2#3 := by decide
/-- The dimensions and the ceiling (L1.3, L2.1). -/
theorem test_dimensions :
    verdictOf (header 0 0 4 0 ++ pad) = 3#3 ∧ verdictOf (header 1 0 4 0 ++ pad) = 4#3 ∧
    verdictOf (header 20000 20000 4 0 ++ pad) = 0#3 ∧ verdictOf (header 20000 20001 4 0 ++ pad) = 5#3 ∧
    verdictOf (header 65536 65536 4 0 ++ pad) = 5#3 := by decide
/-- The channel and colorspace bytes (L1.5). -/
theorem test_channels_and_colorspace :
    verdictOf (header 1 1 5 0 ++ pad) = 6#3 ∧ verdictOf (header 1 1 2 32 ++ pad) = 6#3 ∧
    verdictOf (header 1 1 4 16 ++ pad) = 7#3 ∧ verdictOf (header 1 1 4 15 ++ pad) = 0#3 := by decide
/-- The priority rows (L2.1, P10). -/
theorem test_priority :
    verdictOf (header 0 1 7 255 ++ pad) = 3#3 ∧ verdictOf (header 5 0 9 0 ++ pad) = 4#3 ∧
    verdictOf (header 20000 20001 9 48 ++ pad) = 5#3 := by decide
/-- A request of 4 channels for a 3-channel source (R139). -/
theorem test_requested_channels :
    (after { validating (header 1 3 3 0 ++ pad) with reqEn := true, req4 := true }).outCh = 4#3 := by decide

/-- `withFetchWord` puts an instruction where the next step runs it. -/
theorem test_fetch_word : (after (State.reset.withFetchWord 8 0xC2)).run = 2#6 := by decide

/-! ### The host -/

/-- The host may not change IN while busy (R71), and may otherwise. -/
theorem test_host_places_the_input :
    hostMove (.placeIn [1#8]) (decodeOfBytes [] 1 4) = .refused .inputChangedWhileBusy ∧
    hostMove (.placeIn [1#8]) State.reset = .next { State.reset with inMem := [(0, 1#8)] } := ⟨rfl, rfl⟩
/-- A shorter file replaces the one before as a whole (log 15). -/
theorem test_host_replaces_the_input :
    (nextOf (hostMove (.placeIn [7#8]) { State.reset with inMem := memOfBytes 0 [1#8, 2#8] })).inMem = [(0, 7#8)] := by
  decide
/-- In VALIDATE the image is the header's: 4 bytes of a 1 by 1 image, none of a header that fails (R324). -/
theorem test_host_writes_the_output_in_validate :
    [3, 4].map (imageMayHold (validating (header 1 1 4 0 ++ pad))) = [true, false] ∧
    imageMayHold (validating (header 0 1 4 0 ++ pad)) 0 = false := by decide
/-- R284: 100 bytes abandoned, 50 done later, then a failed start: byte 10 is known and byte 60 is open, until the host
writes it. -/
theorem test_failed_decode_keeps_the_output :
    let s := { State.reset with
      fsm := .done, total := 10#_, pix := 10#_, outCh := 5#_, outOpen := [(0, 100)],
      outMem := [(10, 1#8), (60, 2#8)], pins := { State.reset.pins with start := true } }
    let t := after (after s)
    t.fsm = .error ∧ outPromised t 10 = some 1#8 ∧ outPromised t 60 = none ∧
      outPromised (nextOf (hostMove (.writeOut 60 3#8) t)) 60 = some 3#8 := by decide
/-- The host may not write the image's bytes while busy, and may write beyond them (R324). -/
theorem test_host_writes_the_output :
    hostMove (.writeOut 3 1#8) (decodeOfBytes [] 1 4) = .refused .outputWrittenWhileBusy ∧
    nextOf (hostMove (.writeOut 4 1#8) (decodeOfBytes [] 1 4)) =
      { decodeOfBytes [] 1 4 with outMem := [(4, 1#8)] } := by
  exact ⟨rfl, by decide⟩

/-! ### Witnesses: for every obligation with hypotheses, a state and operands that meet all of them together -/

/-- The chunks of P1, RGBA and RUN 3, for an image of 4 by 1, at the first of them. -/
def p1 : State := decodeOfBytes [0xFF#8, 0x0A#8, 0x14#8, 0x1E#8, 0xFF#8, 0xC2#8] 4 4

/-- The same decode in 3 output channels. -/
def p1In3 : State := { p1 with outCh := 3#_ }

/-- P8: nothing in the chunk region. -/
def p8 : State := decodeOfBytes [] 3 3

/-- The last pixel of P8. -/
def p8Last : State := { p8 with pix := 2#_, outMem := memOfBytes 0 [0#8, 0#8, 0#8, 0#8, 0#8, 0#8] }

/-- A decode that waits for its whole input. -/
def unplaced (s : State) : State := { s with inMem := [] }

/-- A state with the host's `rst` and `start` at given levels. -/
def driven (rst start : Bool) (s : State) : State := { s with pins := { s.pins with rst := rst, start := start } }

/-- A state in `f` as a decode leaves it there. -/
def inState (f : Fsm) : State := { State.reset with fsm := f }

/-- ERROR with code 3. -/
def inError : State := { State.reset with fsm := .error, errCode := 3#_ }

theorem test_witness_ResetWinsFromEveryState : (driven true true p1).pins.rst = true := by decide

theorem test_witness_ResetAbandonsTheDecode :
    (driven true false p1).pins.rst = true ∧ (driven true false p1).fsm = .decode ∧
    15 < (driven true false p1).total.toNat * (driven true false p1).outCh.toNat := by decide

theorem test_witness_StartLatchesTheInputs :
    (∀ f ∈ [Fsm.idle, .done, .error], let s := driven false true (inState f)
      s.pins.rst = false ∧ s.pins.start = true ∧ s.fsm = f) ∧
    (∀ f ∈ [Fsm.validate, .decode], let s := inState f
      let p : HostPins := { s.pins with start := true, inLen := 7, reqChEn := true, reqCh4 := true }
      busy s = true ∧ p ≠ s.pins ∧ p.rst = s.pins.rst ∧ p.outReady = s.pins.outReady) := by decide

theorem test_witness_HoldIsStable :
    ∀ f ∈ [Fsm.idle, .done, .error], let s := inState f
      s.pins.rst = false ∧ s.pins.start = false ∧ s.fsm = f := by decide

theorem test_witness_ErrorIsLeftByStartOrResetOnly :
    (inError.fsm = .error ∧ step inError = .next (after inError) ∧ inError.pins.rst = false ∧
      inError.pins.start = false) ∧
    (let s := driven false true inError;
      s.fsm = .error ∧ step s = .next (after s) ∧ s.pins.start = true ∧ (after s).fsm ≠ .error) ∧
    (let s := driven true false inError;
      s.fsm = .error ∧ step s = .next (after s) ∧ s.pins.rst = true ∧ (after s).fsm ≠ .error) :=
  ⟨⟨rfl, rfl, rfl, rfl⟩, ⟨rfl, rfl, rfl, by decide⟩, ⟨rfl, rfl, rfl, by decide⟩⟩

/-- One for each of VALIDATE and DECODE, to each of the two states it may go to. -/
theorem test_witness_OnlyResetStopsADecodeEarly :
    (let s := validating (header 2 2 4 0 ++ pad);
      s.pins.rst = false ∧ step s = .next (after s) ∧ s.fsm = .validate ∧ (after s).fsm = .decode ∧ busy s = true) ∧
    (let s := validating [];
      s.pins.rst = false ∧ step s = .next (after s) ∧ s.fsm = .validate ∧ (after s).fsm = .error) ∧
    (p8.pins.rst = false ∧ step p8 = .next (after p8) ∧ p8.fsm = .decode ∧ (after p8).fsm = .decode ∧
      busy p8 = true) ∧
    (p8Last.pins.rst = false ∧ step p8Last = .next (after p8Last) ∧ p8Last.fsm = .decode ∧
      (after p8Last).fsm = .done) :=
  ⟨⟨rfl, rfl, rfl, rfl, rfl⟩, ⟨rfl, rfl, rfl, rfl⟩, ⟨rfl, rfl, rfl, rfl, rfl⟩, ⟨rfl, rfl, rfl, rfl⟩⟩

/-- Lengths 21 and 22. -/
theorem test_witness_ShortInputIsTooShort :
    (let s := validating (header 2 2 4 0 ++ [0#8, 0#8, 0#8, 0#8, 0#8, 0#8, 0#8]);
      s.fsm = .validate ∧ s.pins.rst = false ∧ s.len = 21) ∧
    (let s := validating (header 1 1 4 0 ++ pad);
      s.fsm = .validate ∧ s.pins.rst = false ∧ s.len = 22 ∧ step s = .next (after s)) :=
  ⟨⟨rfl, rfl, rfl⟩, ⟨rfl, rfl, rfl, rfl⟩⟩

/-- Every code is the first failing check of some placed header. -/
theorem test_witness_VerdictIsTheFirstFailingCheck :
    ∀ f ∈ [(header 2 2 4 0 ++ [0#8, 0#8, 0#8, 0#8, 0#8, 0#8, 0#8], 1#3),
        ([0x71#8, 0x6F#8, 0x69#8, 0x46#8] ++ be32 0 ++ be32 0 ++ [9#8, 255#8] ++ pad, 2#3),
        (header 0 0 4 0 ++ pad, 3#3), (header 1 0 4 0 ++ pad, 4#3), (header 400000001 1 4 0 ++ pad, 5#3),
        (header 1 1 2 32 ++ pad, 6#3), (header 1 1 4 16 ++ pad, 7#3)],
      let s := validating f.1
      s.fsm = .validate ∧ s.pins.rst = false ∧ (∀ a, a < 14 → (memRead s.inMem a).isSome = true) ∧
      (after s).fsm = .error ∧ (after s).errCode = f.2 := by decide

theorem test_witness_ErrorEntryWritesOnlyTheCode :
    let s := validating (header 0 1 7 255 ++ pad)
    s.fsm = .validate ∧ step s = .next (after s) ∧ (after s).fsm = .error ∧ s.fsm ≠ .error ∧ ResultInv s :=
  ⟨rfl, rfl, by decide, by decide, by simp [ResultInv, validating, State.reset]⟩

/-- The least area, and the area that is the ceiling. -/
theorem test_witness_GoodHeaderStartsTheDecode :
    ∀ f ∈ [header 1 1 3 15 ++ pad, header 20000 20000 4 0 ++ pad],
      let s := validating f
      s.fsm = .validate ∧ s.pins.rst = false ∧ headerPlaced s ∧ ∀ e, ¬ headerFails s e := by
  intro f hf
  simp only [List.mem_cons, List.not_mem_nil, or_false] at hf
  rcases hf with rfl | rfl <;> refine ⟨rfl, rfl, ?_, ?_⟩ <;> first
    | (unfold headerPlaced; decide)
    | (intro e; cases e <;> simp only [headerFails] <;> decide)

/-- The chunks and the padding changed, the header kept. -/
theorem test_witness_VerdictIgnoresChunksAndPadding :
    let s := validating (header 2 2 4 0 ++ pad)
    let m := memOfBytes 0 (header 2 2 4 0 ++ [9#8, 9#8])
    s.fsm = .validate ∧ m ≠ s.inMem ∧ ∀ a, a < 14 → memRead m a = memRead s.inMem a := by decide

/-- The first chunk of P1, 5 bytes, from a list that goes on. -/
theorem test_witness_StepRunsTheDecodedInstruction :
    decoding p1 ∧ readsChunk p1 ∧
    decode [0xFF#8, 0x0A#8, 0x14#8, 0x1E#8, 0xFF#8, 0xC2#8] =
      .ok (.rgba 0x0A#8 0x14#8 0x1E#8 0xFF#8, [0xC2#8]) ∧
    ∀ k (hk : k < [0xFF#8, 0x0A#8, 0x14#8, 0x1E#8, 0xFF#8, 0xC2#8].length),
      memRead p1.inMem (p1.cur + k) = some [0xFF#8, 0x0A#8, 0x14#8, 0x1E#8, 0xFF#8, 0xC2#8][k] := by
  refine ⟨by unfold decoding; decide, by unfold readsChunk; decide, rfl, by decide⟩

/-- Run 1 and run 61. -/
theorem test_witness_PendingRunRepeatsThePixel :
    ∀ r ∈ [1#6, 61#6], let s := { p1 with run := r }
      (s.fsm = .decode ∧ s.pins.rst = false ∧ s.pins.outReady = true) ∧ 0 < s.run.toNat := by decide

/-- `cur = len - 8`. -/
theorem test_witness_ExhaustedStreamRepeatsThePixel :
    (p8.fsm = .decode ∧ p8.pins.rst = false ∧ p8.pins.outReady = true) ∧ p8.run.toNat = 0 ∧
    (p8.len : Int) - 8 = (p8.cur : Int) := by decide

theorem test_witness_OnlyChunksWriteTheCache :
    (decoding p1 ∧ step p1 = .next (after p1) ∧ readsChunk p1) ∧
    (decoding p8 ∧ step p8 = .next (after p8) ∧ ¬ readsChunk p8) := by
  refine ⟨⟨⟨rfl, rfl, rfl⟩, rfl, ?_⟩, ⟨rfl, rfl, rfl⟩, rfl, ?_⟩ <;> unfold readsChunk <;> decide

theorem p1_cursorInv : CursorInv p1 := ⟨by decide, by decide, fun _ => by decide⟩
theorem p8_cursorInv : CursorInv p8 := ⟨by decide, by decide, fun _ => by decide⟩

theorem test_witness_CursorAdvancesByTheChunk :
    (decoding p1 ∧ CursorInv p1 ∧ step p1 = .next (after p1) ∧ readsChunk p1 ∧
      memRead p1.inMem p1.cur = some 0xFF#8) ∧
    (decoding p8 ∧ CursorInv p8 ∧ step p8 = .next (after p8) ∧ ¬ readsChunk p8) := by
  refine ⟨⟨⟨rfl, rfl, rfl⟩, p1_cursorInv, rfl, ?_, by decide⟩, ⟨rfl, rfl, rfl⟩, p8_cursorInv, rfl, ?_⟩ <;>
    unfold readsChunk <;> decide

theorem test_witness_DecodeRaisesNoError :
    (p1.fsm = .decode ∧ p1.pins.rst = false ∧ step p1 = .next (after p1) ∧ ResultInv p1) ∧
    ((unplaced p1).fsm = .decode ∧ (unplaced p1).pins.rst = false ∧
      step (unplaced p1) = .fault (.inputUnanswered 14)) :=
  ⟨⟨rfl, rfl, rfl, by decide, fun h => absurd h (by decide)⟩, rfl, rfl, rfl⟩

theorem test_witness_StalledOutputHoldsTheDecode :
    let s := { p1 with pins := { p1.pins with outReady := false } }
    s.fsm = .decode ∧ s.pins.rst = false ∧ s.pins.outReady = false := by decide

/-- RGBA and INDEX do change alpha. -/
theorem test_witness_RgbaReplacesAllChannels :
    ∀ i ∈ [Instr.rgba 1#8 2#8 3#8 4#8, .index 5#6],
      ∃ t, exec i p1 = .next t ∧ t.px.a ≠ p1.px.a := by
  intro i hi
  simp only [List.mem_cons, List.not_mem_nil, or_false] at hi
  rcases hi with rfl | rfl <;> exact ⟨_, rfl, by decide⟩

theorem p1_cacheInv : CacheInv p1 := by
  intro _ k hk
  left
  simp [p1, decodeOfBytes, validating, State.reset]

/-- A decode whose slot 11 holds (10,10,10,255). -/
def cached11 : State := { p1 with cache := p1.cache.set 11 (pixel 10 10 10 255) }

theorem cached11_cacheInv : CacheInv cached11 := by
  intro _ k hk
  by_cases h : k = 11
  · subst h
    right
    simp only [cached11, Vector.getElem_set_self]
    decide
  · left
    simp only [cached11, Vector.getElem_set_ne _ _ (Ne.symm h)]
    simp [p1, decodeOfBytes, validating, State.reset]

/-- Op bytes 00 and 3F; an entry that is not zero, and one that is. -/
theorem test_witness_IndexCopiesTheCacheEntry :
    (0x00#8).toNat ≤ 0x3F ∧ (0x3F#8).toNat ≤ 0x3F ∧ cached11.fsm = .decode ∧ CacheInv cached11 ∧
    cached11.cache[11] ≠ { r := 0#8, g := 0#8, b := 0#8, a := 0#8 } ∧
    cached11.cache[5] = { r := 0#8, g := 0#8, b := 0#8, a := 0#8 } :=
  ⟨by decide, by decide, rfl, cached11_cacheInv, by decide, by decide⟩

theorem test_witness_DiffAddsBiasedDeltas :
    ∀ b0 ∈ [0x40#8, 0x7F#8], 0x40 ≤ b0.toNat ∧ b0.toNat ≤ 0x7F := by decide
theorem test_witness_LumaAddsGreenRelativeDeltas :
    ∀ b0 ∈ [0x80#8, 0xBF#8], 0x80 ≤ b0.toNat ∧ b0.toNat ≤ 0xBF := by decide
theorem test_witness_RunLoadsTheCounter :
    ∀ b0 ∈ [0xC0#8, 0xFD#8], 0xC0 ≤ b0.toNat ∧ b0.toNat ≤ 0xFD := by decide

/-- One instruction of each op; an offset before the stored pixel, one after it; a slot not written. -/
theorem test_witness_OpsLeaveAllElseUnchanged :
    ∀ i ∈ [Instr.rgba 1#8 2#8 3#8 4#8, .rgb 1#8 2#8 3#8, .index 5#6, .diff 3#2 2#2 1#2, .luma 31#6 0#4 15#4, .run 61#6],
      let s := { p1 with pix := 1#_ }
      ∃ t, exec i s = .next t ∧ 3 < outAddress s ∧ outAddress s + pixelBytes s ≤ 8 ∧
        62 ≠ (pixelHash t.px).toNat := by
  intro i hi
  simp only [List.mem_cons, List.not_mem_nil, or_false] at hi
  rcases hi with rfl | rfl | rfl | rfl | rfl | rfl <;> exact ⟨_, rfl, by decide, by decide, by decide⟩

theorem test_witness_PixelWriteStoresTheChannels : p1.outCh = 4#3 ∧ p1In3.outCh = 3#3 := by decide
theorem test_witness_OutputPortShowsThePixel : p1.outCh = 4#3 ∧ p1In3.outCh = 3#3 := by decide

theorem test_witness_OpByteFixesTheChunkLength :
    decode [0xA0#8, 0x78#8, 0x0B#8] = .ok (.luma 32#6 7#4 8#4, [0x0B#8]) := by rfl
theorem test_witness_DecodeOfEncodeIsTheInstruction :
    (Instr.run 61#6).wf = true ∧ (Instr.diff 0#2 0#2 0#2).wf = true := by decide
theorem test_witness_EncodeOfDecodeIsTheBytes :
    decode [0xFD#8, 0xC0#8] = .ok (.run 61#6, [0xC0#8]) := by rfl

/-- Every offset below `len` is placed if the placed list is that long. -/
theorem p1_inputPlaced : inputPlaced p1 := by
  intro a ha
  have h : p1.len = 28 := by decide
  rw [h] at ha
  have : ∀ a, a < 28 → (memRead p1.inMem a).isSome = true := by decide
  exact this a ha

/-- With the output accepted, and with it stalled (log 7). -/
theorem test_witness_EveryStepGoesOnWithAPlacedInput :
    inputPlaced p1 ∧ inputPlaced { p1 with pins := { p1.pins with outReady := false } } :=
  ⟨p1_inputPlaced, p1_inputPlaced⟩

/-- The last header byte, and the last operand of an op read at `len - 9`. -/
theorem test_witness_StepsReadWithinTheInput :
    step { validating (header 1 1 4 0 ++ pad) with inMem := memOfBytes 0 (header 1 1 4 0).dropLast } =
      .fault (.inputUnanswered 13) ∧
    step { decodeOfBytes [0xFF#8] 2 4 with inMem := memOfBytes 0 (header 2 1 4 0 ++ [0xFF#8, 0#8, 0#8, 0#8]) } =
      .fault (.inputUnanswered 18) := ⟨rfl, rfl⟩

/-- All of IN changed but the five bytes at the cursor. -/
theorem test_witness_DecodeStepReadsOnlyItsChunk :
    let m := memOfBytes 14 [0xFF#8, 0x0A#8, 0x14#8, 0x1E#8, 0xFF#8]
    p1.fsm = .decode ∧ m ≠ p1.inMem ∧
    ∀ a, p1.cur ≤ a → a < p1.cur + 5 → a + 5 ≤ p1.len → memRead m a = memRead p1.inMem a := by
  refine ⟨rfl, by decide, ?_⟩
  intro a h1 h2 _
  have h : p1.cur = 14 := by decide
  rw [h] at h1 h2
  interval_cases a <;> decide

theorem test_witness_NoStepWritesTheInput : step p1 = .next (after p1) := rfl

theorem test_witness_OnlyDecodeWritesTheOutput :
    let s := validating (header 2 2 4 0 ++ pad)
    step s = .next (after s) ∧ s.fsm ≠ .decode := ⟨rfl, by decide⟩

theorem p1_countInv : CountInv p1 :=
  ⟨fun _ => by decide, fun _ => by decide, fun h => absurd h (by decide)⟩
theorem p8_countInv : CountInv p8 :=
  ⟨fun _ => by decide, fun _ => by decide, fun h => absurd h (by decide)⟩

/-- From each of the three states, a start on an input that is too short. -/
theorem test_witness_FailedDecodeKeepsTheOutput :
    ∀ f ∈ [Fsm.idle, .done, .error], let s := driven false true (inState f)
      s.pins.rst = false ∧ s.pins.start = true ∧ s.fsm = f ∧ (after (after s)).fsm = .error := by decide

/-- The step of each of them answers. -/
theorem test_witness_FailedDecodeKeepsTheOutput_steps :
    ∀ f ∈ [Fsm.idle, .done, .error], let s := driven false true (inState f)
      step s = .next (after s) ∧ step (after s) = .next (after (after s)) := by
  intro f hf
  simp only [List.mem_cons, List.not_mem_nil, or_false] at hf
  rcases hf with rfl | rfl | rfl <;> exact ⟨rfl, rfl⟩

/-- Offsets 15 and 16 on either side of an image of 16 bytes, in DECODE and in VALIDATE; offset 0 where the header
fails; offset 0 outside busy. -/
theorem test_witness_HostWritesStayOffTheImage :
    (p1.fsm = .decode ∧ 15 < p1.total.toNat * p1.outCh.toNat ∧ ¬ 16 < p1.total.toNat * p1.outCh.toNat) ∧
    (let s := validating (header 2 2 4 0 ++ pad);
      s.fsm = .validate ∧ s.pins.rst = false ∧ step s = .next (after s) ∧ (after s).fsm = .decode ∧
      15 < (after s).total.toNat * (after s).outCh.toNat ∧ ¬ 16 < (after s).total.toNat * (after s).outCh.toNat) ∧
    (let s := validating (header 0 1 4 0 ++ pad);
      s.fsm = .validate ∧ s.pins.rst = false ∧ step s = .next (after s) ∧ (after s).fsm = .error) ∧
    busy State.reset = false ∧ ∃ t, hostMove (.writeOut 0 1#8) State.reset = .next t :=
  ⟨⟨rfl, by decide, by decide⟩, ⟨rfl, rfl, rfl, by decide, by decide, by decide⟩, ⟨rfl, rfl, rfl, by decide⟩,
    by decide, _, rfl⟩

theorem test_witness_WidthsFollowTheCeiling : 1 ≤ 4 * Config.pixelCeiling := by decide

/-- The first and the last byte of the first pixel. -/
theorem test_witness_OutputWritesStayInTheImage :
    CountInv p1 ∧ p1.fsm = .decode ∧ step p1 = .next (after p1) ∧
    memRead (after p1).outMem 0 ≠ memRead p1.outMem 0 ∧ memRead (after p1).outMem 3 ≠ memRead p1.outMem 3 :=
  ⟨p1_countInv, rfl, rfl, by decide, by decide⟩

/-- P8 done: 9 bytes of image. -/
def p8Done : State := after p8Last

theorem p8Done_countInv : CountInv p8Done :=
  ⟨fun _ => by decide, fun h => absurd h (by decide), fun _ => by decide⟩

theorem p8Done_imageInv : ImageInv p8Done := by
  intro _ a ha
  have h : p8Done.pix.toNat * p8Done.outCh.toNat = 9 := by decide
  rw [h] at ha
  have : ∀ a, a < 9 → (memRead p8Done.outMem a).isSome = true := by decide
  exact this a ha

theorem test_witness_HostReadsTheImageWhenDone :
    (CountInv p8Done ∧ ImageInv p8Done ∧ p8Done.fsm = .done ∧ 8 < p8Done.total.toNat * p8Done.outCh.toNat) ∧
    busy p1 = true :=
  ⟨⟨p8Done_countInv, p8Done_imageInv, by decide, by decide⟩, by decide⟩

theorem p1_memInv : MemInv p1 := by unfold MemInv; decide
theorem p1_runInv : RunInv p1 := fun _ => by decide
theorem p1_resultInv : ResultInv p1 := ⟨by decide, fun h => absurd h (by decide)⟩
theorem p1_imageInv : ImageInv p1 := by
  intro _ a ha
  have h : p1.pix.toNat * p1.outCh.toNat = 0 := by decide
  omega
theorem p1_machineInv : MachineInv p1 :=
  ⟨p1_memInv, p1_runInv, p1_cursorInv, p1_cacheInv, p1_countInv, p1_resultInv, p1_imageInv⟩

theorem test_witness_StepKeepsMemoriesCanonical : MemInv p1 ∧ step p1 = .next (after p1) := ⟨p1_memInv, rfl⟩
theorem test_witness_StepKeepsRunInRange : RunInv p1 ∧ step p1 = .next (after p1) := ⟨p1_runInv, rfl⟩
theorem test_witness_StepKeepsCursorInRange : CursorInv p1 ∧ step p1 = .next (after p1) := ⟨p1_cursorInv, rfl⟩
/-- An entry that is not zero, and one that is. -/
theorem test_witness_StepKeepsCacheHashed :
    (CacheInv p1 ∧ step p1 = .next (after p1)) ∧
    (CacheInv cached11 ∧ cached11.fsm = .decode ∧
      (∃ t, exec (.index 11#6) cached11 = .next t ∧ t.px ≠ { r := 0#8, g := 0#8, b := 0#8, a := 0#8 }) ∧
      ∃ t, exec (.index 5#6) cached11 = .next t ∧ t.px = { r := 0#8, g := 0#8, b := 0#8, a := 0#8 }) :=
  ⟨⟨p1_cacheInv, rfl⟩, cached11_cacheInv, rfl, ⟨_, rfl, by decide⟩, ⟨_, rfl, by decide⟩⟩
theorem test_witness_StepKeepsPixelCount : CountInv p1 ∧ step p1 = .next (after p1) := ⟨p1_countInv, rfl⟩
theorem test_witness_StepKeepsStatusLegal : ResultInv p1 ∧ step p1 = .next (after p1) := ⟨p1_resultInv, rfl⟩
theorem test_witness_StepKeepsImageWritten :
    CountInv p1 ∧ ImageInv p1 ∧ step p1 = .next (after p1) := ⟨p1_countInv, p1_imageInv, rfl⟩

/-- The host drives its pins, then the block steps. -/
theorem test_witness_EveryRunKeepsTheInvariants :
    MachineInv p1 ∧ ∃ t, takeTurns p1 [.host (.drive p1.pins), .block] = .next t := ⟨p1_machineInv, _, rfl⟩

theorem test_witness_OutputChannelsNeverAffectDecoding :
    onlyOutputDiffers p1 { p1In3 with outMem := [(0, 9#8)], reqEn := true } ∧
    p1 ≠ { p1In3 with outMem := [(0, 9#8)], reqEn := true } := ⟨rfl, by decide⟩

/-- Four pixels to go: 0 and 3 fewer than all. -/
theorem test_witness_DecodeTakesExactlyTotalPixels :
    decoding p1 ∧ CountInv p1 ∧ inputPlaced p1 ∧ 0 < p1.total.toNat - p1.pix.toNat ∧
    3 < p1.total.toNat - p1.pix.toNat := by
  exact ⟨⟨rfl, rfl, rfl⟩, p1_countInv, p1_inputPlaced, by decide, by decide⟩

/-- `RGB 10,10,10`, `DIFF 1,0,-1`, then `INDEX 11`: nothing between them caches at slot 11 (P2). -/
theorem test_witness_IndexReproducesTheCachedPixel :
    let s := decodeOfBytes [0xFE#8, 10#8, 10#8, 10#8, 0x79#8, 0x0B#8] 5 3
    exec (.rgb 10#8 10#8 10#8) s = .next (after s) ∧ pixelHash (after s).px = 11#6 ∧
    SlotUntouched 11#6 (after s) (after (after s)) ∧
    ∃ v, exec (.index 11#6) (after (after s)) = .next v := by
  refine ⟨rfl, by decide, ?_, _, rfl⟩
  exact .step _ _ _ (by decide) (by decide) rfl (fun _ _ => by decide) (.refl _)

/-- A RUN of field 2 at pixel 1 of 4: none, and all, of its repeats. -/
theorem test_witness_RunRepeatsThePixelFieldTimes :
    let s := { p1 with pix := 1#_ }
    decoding s ∧ CountInv s ∧ (∃ t, exec (.run 2#6) s = .next t) ∧
    ∀ k ∈ [0, 2], k ≤ (2#6).toNat ∧ s.pix.toNat + 1 + k ≤ s.total.toNat :=
  ⟨⟨rfl, rfl, rfl⟩, ⟨fun _ => by decide, fun _ => by decide, fun h => absurd h (by decide)⟩, ⟨_, rfl⟩, by decide⟩

end Sys2Proof.Tests
end

section
/-! PROOFS. The two statements of the scope family: the hash (R13) and the widths that follow from the ceiling (R6). -/

namespace Sys2Proof.Machine

open Sys2Proof

/-- The weighted channel sum that the hash reduces is at most `255 * (3 + 5 + 7 + 11)` (R13). -/
theorem weightedSum_le (p : Pixel) :
    p.r.toNat * 3 + p.g.toNat * 5 + p.b.toNat * 7 + p.a.toNat * 11 ≤ 6630 := by
  have hr := p.r.isLt
  have hg := p.g.isLt
  have hb := p.b.isLt
  have ha := p.a.isLt
  omega

/-- The hash may be formed from products already reduced mod 64 (R13). -/
theorem pixelHash_toNat_of_reduced (p : Pixel) :
    (pixelHash p).toNat =
      (p.r.toNat * 3 % 64 + p.g.toNat * 5 % 64 + p.b.toNat * 7 % 64 + p.a.toNat * 11 % 64) % 64 := by
  rw [pixelHash_toNat]
  simp only [Nat.add_mod, Nat.mod_mod]

/-- The pixel that every decode starts from hashes to slot 53 (R170). -/
theorem pixelHash_startPixel : (pixelHash startPixel).toNat = 53 := by
  rw [pixelHash_toNat]
  rfl

/-- Settles O32: the hash's value, its bound, its reduced form and the start pixel, each by its own lemma. -/
theorem hashIsTheWeightedSumMod64 : Obligations.HashIsTheWeightedSumMod64 :=
  ⟨fun p => ⟨pixelHash_toNat p, weightedSum_le p, pixelHash_toNat_of_reduced p⟩, pixelHash_startPixel⟩

/-- Settles O33: `ceilLog2` is characterised by `ceilLog2_le_iff`, and the two widths are its values by definition. -/
theorem widthsFollowTheCeiling : Obligations.WidthsFollowTheCeiling :=
  ⟨fun _ _ hn => ceilLog2_le_iff hn, rfl, rfl, pixW_eq, outAddrW_eq⟩

end Sys2Proof.Machine
end

section
/-! PROOFS. The state family, part 1: what the whole transitions do to the fields the invariants read, and the rule by
which a property of the state is shown to be kept by every step. -/

namespace Sys2Proof.Machine

open Sys2Proof

/-! ### The status flags -/

theorem busy_eq_true_iff (s : State) : busy s = true ↔ s.fsm = .validate ∨ s.fsm = .decode := decide_eq_true_iff

theorem done_eq_true_iff (s : State) : done s = true ↔ s.fsm = .done := decide_eq_true_iff

theorem error_eq_true_iff (s : State) : error s = true ↔ s.fsm = .error := decide_eq_true_iff

/-- All three flags are 0 in IDLE, and in no other control state (R44). -/
theorem flags_eq_false_iff (s : State) : busy s = false ∧ done s = false ∧ error s = false ↔ s.fsm = .idle := by
  cases hf : s.fsm <;> simp [busy, done, error, hf]

/-! ### Control states after whole transitions -/

@[simp] theorem tReset_fsm (s : State) : (tReset s).fsm = .idle := rfl
@[simp] theorem tStart_fsm (s : State) : (tStart s).fsm = .validate := rfl
@[simp] theorem startDecode_fsm (hd : Header) (s : State) : (startDecode hd s).fsm = .decode := rfl

/-! ### What the validator selects -/

/-- No error has the code 0, which stands for no error (R280). -/
theorem errorCode_ne_zero (e : HeaderError) : errorCode e ≠ 0#3 := by cases e <;> decide

/-- A legal channel byte fits the three bits of `src_ch` (R136, R138). -/
theorem srcCh_of_legal {c : Byte} (hc : c = 3#8 ∨ c = 4#8) : c.extractLsb' 0 3 = 3#3 ∨ c.extractLsb' 0 3 = 4#3 := by
  rcases hc with rfl | rfl
  · exact .inl rfl
  · exact .inr rfl

/-- The output channel count is the source's or the requested one, 3 or 4 (R139). -/
theorem selectOutCh_eq_three_or_four (s : State) {c : Byte} (hc : c = 3#8 ∨ c = 4#8) :
    selectOutCh s c = 3#3 ∨ selectOutCh s c = 4#3 := by
  unfold selectOutCh
  split
  · exact srcCh_of_legal hc
  · split
    · exact .inr rfl
    · exact .inl rfl

/-! ### Caching a pixel that is cached already -/

theorem updateCache_cache_of_cached {s : State} (h : cacheRead s (pixelHash s.px) = s.px) :
    (updateCache s).cache = s.cache := by
  ext k hk
  rw [updateCache_getElem]
  split
  · subst k
    exact h.symm
  · rfl

end Sys2Proof.Machine

namespace Sys2Proof.Safety

open Sys2Proof Sys2Proof.Machine

/-! ### Properties that every step keeps -/

/-- A property of `s` is one of the next state if each transition that changes the state establishes it; a hold
and a stalled T_PIXEL change nothing (R30, R160). -/
theorem step_preserves {P : State → Prop} {s t : State} (h : step s = .next t) (hs : P s)
    (reset : P (tReset s)) (start : P (tStart s))
    (reject : s.fsm = .validate → ∀ e, P (raiseErr e s))
    (accept : s.fsm = .validate → ∀ hd, headerVerdict s = .ok (.ok hd) → P (startDecode hd s))
    (repeated : s.fsm = .decode → 0 < s.run.toNat → P (consumeRun s))
    (chunk : s.fsm = .decode → readsChunk s → ∀ i : Instr, i.wf = true → P (finishOp i.op (applyOp i s)))
    (exhausted : s.fsm = .decode → P (emitPixel s)) : P t := by
  rcases step_cases h with ⟨-, rfl⟩ | ⟨-, -, -, rfl⟩ | ⟨-, -, -, rfl⟩ | ⟨-, hf, e, -, rfl⟩ | ⟨-, hf, hd, hv, rfl⟩ |
    ⟨-, -, -, rfl⟩ | ⟨-, hf, -, hn, rfl⟩ | ⟨-, hf, -, hn, hc, i, hw, rfl⟩ | ⟨-, hf, -, -, -, rfl⟩
  · exact reset
  · exact start
  · exact hs
  · exact reject hf e
  · exact accept hf hd hv
  · exact hs
  · exact repeated hf hn
  · exact chunk hf ⟨hn, lt_padStart_iff.1 hc⟩ i hw
  · exact exhausted hf

/-- What a branch of T_PIXEL writes before the shared end, at most: `px`, `run`, `cur` and `cache` (R160). -/
def setDatapath (px : Pixel) (run : BitVec Config.runW) (cur : Nat) (cache : Vector Pixel Config.cacheSlots)
    (s : State) : State :=
  { s with px := px, run := run, cur := cur, cache := cache }

theorem consumeRun_eq_emitPixel (s : State) :
    consumeRun s = emitPixel (setDatapath s.px (s.run - 1#_) s.cur s.cache s) := rfl

theorem finishOp_eq_emitPixel (i : Instr) (s : State) : ∃ px run cur cache,
    finishOp i.op (applyOp i s) = emitPixel (setDatapath px run cur cache s) := by
  rw [applyOp_eq]
  exact ⟨_, _, _, _, rfl⟩

/-- For a property that does not depend on which branch a T_PIXEL takes. -/
theorem step_preserves_of_emit {P : State → Prop} {s t : State} (h : step s = .next t) (hs : P s)
    (reset : P (tReset s)) (start : P (tStart s))
    (reject : s.fsm = .validate → ∀ e, P (raiseErr e s))
    (accept : s.fsm = .validate → ∀ hd, headerVerdict s = .ok (.ok hd) → P (startDecode hd s))
    (emit : s.fsm = .decode → ∀ px run cur cache, P (emitPixel (setDatapath px run cur cache s))) : P t := by
  refine step_preserves h hs reset start reject accept (fun hf _ => ?_) (fun hf _ i _ => ?_)
    (fun hf => emit hf s.px s.run s.cur s.cache)
  · rw [consumeRun_eq_emitPixel]
    exact emit hf _ _ _ _
  · obtain ⟨px, run, cur, cache, heq⟩ := finishOp_eq_emitPixel i s
    rw [heq]
    exact emit hf px run cur cache

end Sys2Proof.Safety
end

section
/-! PROOFS. The state family, part 2: each of the seven invariants is kept by every step. -/

namespace Sys2Proof.Safety

open Sys2Proof Sys2Proof.Machine

/-! ### Invariants of a decode hold trivially outside it -/

theorem runInv_of_not_decoding {s : State} (hd : s.fsm ≠ .decode) (hn : s.fsm ≠ .done) : RunInv s :=
  fun h => absurd h (not_or.2 ⟨hd, hn⟩)

theorem cacheInv_of_not_decode {s : State} (hd : s.fsm ≠ .decode) : CacheInv s := fun h => absurd h hd

theorem countInv_of_not_decoding {s : State} (hd : s.fsm ≠ .decode) (hn : s.fsm ≠ .done) : CountInv s :=
  ⟨fun h => absurd h (not_or.2 ⟨hd, hn⟩), fun h => absurd h hd, fun h => absurd h hn⟩

theorem imageInv_of_not_decoding {s : State} (hd : s.fsm ≠ .decode) (hn : s.fsm ≠ .done) : ImageInv s :=
  fun h => absurd h (not_or.2 ⟨hd, hn⟩)

/-- Outside a decode the cursor invariant is the width bound alone (R33, R37). -/
theorem cursorInv_of_not_decoding {s : State} (hlen : s.len < 2 ^ s.inLenW) (hcur : s.cur < 2 ^ s.inLenW)
    (hd : s.fsm ≠ .decode) (hn : s.fsm ≠ .done) : CursorInv s :=
  ⟨hlen, hcur, fun h => absurd h (not_or.2 ⟨hd, hn⟩)⟩

/-! ### The memories -/

theorem step_memInv {s t : State} (hs : MemInv s) (h : step s = .next t) : MemInv t :=
  step_preserves_of_emit h hs hs hs (fun _ _ => hs) (fun _ _ _ => hs)
    (fun _ _ _ _ _ => ⟨hs.1, memWf_acceptWrite hs.2 _⟩)

/-! ### The run counter -/

theorem step_runInv {s t : State} (hs : RunInv s) (h : step s = .next t) : RunInv t := by
  refine step_preserves h hs ?reset ?start ?reject ?accept ?repeated ?chunk ?exhausted
  case reset => exact runInv_of_not_decoding nofun nofun
  case start => exact runInv_of_not_decoding nofun nofun
  case reject => exact fun _ _ => runInv_of_not_decoding nofun nofun
  case accept => exact fun _ _ _ _ => Nat.zero_le _
  case repeated =>
    intro hf hn _
    have hle := hs (.inl hf)
    have hrun : (consumeRun s).run.toNat = s.run.toNat - 1 := run_pred_toNat hn
    omega
  case chunk => exact fun hf _ i hw _ => applyOp_run_le hw (hs (.inl hf))
  case exhausted => exact fun hf _ => hs (.inl hf)

/-! ### The cursor -/

/-- A chunk is read at `cur < len - 8` only and has at most 5 bytes, so the cursor stays in 14..len-4 (R72). -/
theorem cursorInv_finishOp {s : State} (hs : CursorInv s) (hf : s.fsm = .decode) (hc : readsChunk s) (i : Instr) :
    CursorInv (finishOp i.op (applyOp i s)) := by
  obtain ⟨hlen, -, hrange⟩ := hs
  obtain ⟨-, hlow, -⟩ := hrange (.inl hf)
  obtain ⟨-, hbefore⟩ := hc
  have hle := clen_le i.op
  have hcur : (finishOp i.op (applyOp i s)).cur = s.cur + clen i.op := by
    simp only [finishOp_eq, applyOp_cur]
    exact lenBits_of_lt (by simp only [applyOp_inLenW]; omega)
  have hlen' : (finishOp i.op (applyOp i s)).len = s.len := applyOp_len i s
  have hw : (finishOp i.op (applyOp i s)).inLenW = s.inLenW := applyOp_inLenW i s
  unfold CursorInv
  rw [hcur, hlen', hw]
  exact ⟨hlen, by omega, fun _ => by omega⟩

theorem step_cursorInv {s t : State} (hs : CursorInv s) (h : step s = .next t) : CursorInv t := by
  have ⟨hlen, hcur, hrange⟩ := hs
  refine step_preserves h hs ?reset ?start ?reject ?accept ?repeated ?chunk ?exhausted
  case reset => exact cursorInv_of_not_decoding (BitVec.isLt _) (BitVec.isLt _) nofun nofun
  case start => exact cursorInv_of_not_decoding (lenBits_lt s _) hcur nofun nofun
  case reject => exact fun _ _ => cursorInv_of_not_decoding hlen hcur nofun nofun
  case accept =>
    intro _ hd hv
    have hmin : 22 ≤ s.len := (headerVerdict_ok hv).1
    have hcur14 : (startDecode hd s).cur = 14 := rfl
    refine ⟨hlen, ?_, fun _ => ⟨hmin, hcur14.ge, ?_⟩⟩
    · exact lt_trans (show 14 < s.len by omega) hlen
    · exact show 14 + 4 ≤ s.len by omega
  case repeated => exact fun hf _ => ⟨hlen, hcur, fun _ => hrange (.inl hf)⟩
  case chunk => exact fun hf hc i _ => cursorInv_finishOp hs hf hc i
  case exhausted => exact fun hf => ⟨hlen, hcur, fun _ => hrange (.inl hf)⟩

/-! ### The cache -/

/-- The one entry that an op writes is a pixel at the slot of its hash (R167). -/
theorem cacheInv_finishOp {s : State} (hs : CacheInv s) (hf : s.fsm = .decode) (i : Instr) :
    CacheInv (finishOp i.op (applyOp i s)) := by
  intro _ k hk
  obtain ⟨-, hcache, -⟩ := chunkEnds_finishOp i s
  rw [hcache k hk]
  split
  · exact .inr (Eq.symm ‹_›)
  · exact hs hf k hk

theorem step_cacheInv {s t : State} (hs : CacheInv s) (h : step s = .next t) : CacheInv t := by
  refine step_preserves h hs ?reset ?start ?reject ?accept ?repeated ?chunk ?exhausted
  case reset => exact cacheInv_of_not_decode nofun
  case start => exact cacheInv_of_not_decode nofun
  case reject => exact fun _ _ => cacheInv_of_not_decode nofun
  case accept => exact fun _ _ _ _ k hk => .inl (Vector.getElem_replicate hk)
  case repeated => exact fun hf _ _ => hs hf
  case chunk => exact fun hf _ i _ => cacheInv_finishOp hs hf i
  case exhausted => exact fun hf _ => hs hf

/-- An INDEX that gives a nonzero pixel finds it at the slot of its hash, so its cache write changes nothing (R43). -/
theorem finishOp_index_cache_of_ne_zero {s : State} (hs : CacheInv s) (hf : s.fsm = .decode) {idx : BitVec 6}
    (hne : cacheRead s idx ≠ zeroPixel) : (finishOp .index (setPx (cacheRead s idx) s)).cache = s.cache := by
  have hslot : pixelHash (cacheRead s idx) = idx :=
    BitVec.eq_of_toNat_eq ((hs hf idx.toNat idx.isLt).resolve_left hne)
  refine updateCache_cache_of_cached (s := advanceCur 1 (setPx (cacheRead s idx) s)) ?_
  exact congrArg (cacheRead s) hslot

/-- An INDEX that gives the zero pixel writes it to slot 0 (R43). -/
theorem finishOp_index_cache_of_zero {s : State} {idx : BitVec 6} (hz : cacheRead s idx = zeroPixel) (k : Nat)
    (hk : k < 64) :
    (finishOp .index (setPx (cacheRead s idx) s)).cache[k] = if k = 0 then zeroPixel else s.cache[k] := by
  obtain ⟨-, hcache, -⟩ := chunkEnds_finishOp (.index idx) s
  have hpx : (finishOp (Instr.index idx).op (applyOp (.index idx) s)).px = zeroPixel := hz
  have hslot := hcache k hk
  rwa [hpx, pixelHash_zero] at hslot

/-! ### The counts -/

/-- Counting a pixel ends the decode at `total`, and not before (R168). -/
theorem countInv_emitPixel {s : State} (hs : CountInv s) (hf : s.fsm = .decode) : CountInv (emitPixel s) := by
  obtain ⟨hhdr, hlt, -⟩ := hs
  have hsucc := pix_succ_toNat (hlt hf)
  refine ⟨fun _ => hhdr (.inl hf), fun hdec => ?_, fun hdone => ?_⟩
  · have hne : s.pix + 1#_ ≠ s.total := by
      intro heq
      simp [emitPixel_eq, heq] at hdec
    have hle : (s.pix + 1#_).toNat ≤ s.total.toNat := hsucc.le.trans (hlt hf)
    exact lt_of_le_of_ne hle fun heq => hne (BitVec.eq_of_toNat_eq heq)
  · by_contra hne
    have hne' : s.pix + 1#_ ≠ s.total := hne
    simp [emitPixel_eq, hne', hf] at hdone

/-- The registers of a header that passed are consistent, and no pixel is counted yet (R138). -/
theorem countInv_startDecode {s : State} {hd : Header} (hv : headerVerdict s = .ok (.ok hd)) :
    CountInv (startDecode hd s) := by
  obtain ⟨-, -, -, -, -, -, hw, hh, hceil, hc, -⟩ := headerVerdict_ok hv
  have htotal := startDecode_total_toNat (s := s) hceil
  have hpos : 1 ≤ hd.w.toNat * hd.h.toNat :=
    Nat.mul_pos (Nat.pos_of_ne_zero (BitVec.toNat_ne.1 hw)) (Nat.pos_of_ne_zero (BitVec.toNat_ne.1 hh))
  have hone : 1 ≤ (startDecode hd s).total.toNat := htotal ▸ hpos
  exact ⟨fun _ => ⟨htotal, hone, htotal ▸ hceil, srcCh_of_legal hc, selectOutCh_eq_three_or_four s hc⟩,
    fun _ => hone, nofun⟩

theorem step_countInv {s t : State} (hs : CountInv s) (h : step s = .next t) : CountInv t := by
  refine step_preserves_of_emit h hs ?reset ?start ?reject ?accept ?emit
  case reset => exact countInv_of_not_decoding nofun nofun
  case start => exact countInv_of_not_decoding nofun nofun
  case reject => exact fun _ _ => countInv_of_not_decoding nofun nofun
  case accept => exact fun _ _ hv => countInv_startDecode hv
  case emit => exact fun hf _ _ _ _ => countInv_emitPixel hs hf

/-! ### The status outputs -/

/-- T_START and T_RESET clear the result registers, and leave ERROR. -/
theorem resultInv_of_cleared {s : State} (hf : s.fsm ≠ .error) (herr : s.errCode = 0#3) (hw : s.hdrW = 0#32)
    (hh : s.hdrH = 0#32) (hch : s.outCh = 0#3) (hcs : s.cs = 0#4) : ResultInv s :=
  ⟨⟨fun h => absurd h hf, fun h => absurd herr h⟩, fun _ => ⟨hw, hh, hch, hcs⟩⟩

/-- In DECODE and DONE only `err_code` is bound: it is 0 (R45). -/
theorem resultInv_of_decoding {s : State} (hf : s.fsm = .decode ∨ s.fsm = .done) (herr : s.errCode = 0#3) :
    ResultInv s := by
  rcases hf with hf | hf <;> simp [ResultInv, hf, herr]

theorem errCode_eq_zero_of_resultInv {s : State} (hs : ResultInv s) (hf : s.fsm ≠ .error) : s.errCode = 0#3 :=
  not_not.1 (mt hs.1.2 hf)

theorem step_resultInv {s t : State} (hs : ResultInv s) (h : step s = .next t) : ResultInv t := by
  refine step_preserves_of_emit h hs ?reset ?start ?reject ?accept ?emit
  case reset => exact resultInv_of_cleared nofun rfl rfl rfl rfl rfl
  case start => exact resultInv_of_cleared nofun rfl rfl rfl rfl rfl
  case reject => exact fun hf e => ⟨⟨fun _ => errorCode_ne_zero e, fun _ => rfl⟩, fun _ => hs.2 (.inr (.inl hf))⟩
  case accept =>
    intro hf hd _
    have herr : s.errCode = 0#3 := errCode_eq_zero_of_resultInv hs (by simp [hf])
    exact resultInv_of_decoding (.inl rfl) herr
  case emit =>
    intro hf px run cur cache
    have herr : s.errCode = 0#3 := errCode_eq_zero_of_resultInv hs (by simp [hf])
    exact resultInv_of_decoding ((emitPixel_fsm (setDatapath px run cur cache s)).imp_left fun h => h.trans hf) herr

/-! ### The image -/

/-- The accepted write of a pixel forgets no byte of OUT, and stores every byte of the pixel it counts (R169). -/
theorem memRead_isSome_of_emits {s t : State} (h : emits s t) (hch : s.outCh = 3#3 ∨ s.outCh = 4#3)
    (hprev : ∀ a, a < s.pix.toNat * s.outCh.toNat → (memRead s.outMem a).isSome = true) {a : Nat}
    (ha : a < (s.pix.toNat + 1) * s.outCh.toNat) : (memRead t.outMem a).isSome = true := by
  obtain ⟨-, -, hr, hg, hb, halpha, hother⟩ := h
  have haddr : outAddress s = s.pix.toNat * s.outCh.toNat := portWrite_addr hch
  rw [Nat.succ_mul, ← haddr] at ha
  by_cases hlt : a < outAddress s
  · rw [hother a (.inl hlt)]
    exact hprev a (haddr ▸ hlt)
  obtain ⟨k, rfl⟩ := Nat.exists_eq_add_of_le (not_lt.1 hlt)
  match k with
  | 0 => exact Option.isSome_of_eq_some hr
  | 1 => exact Option.isSome_of_eq_some hg
  | 2 => exact Option.isSome_of_eq_some hb
  | k + 3 =>
    rcases hch with hch | hch <;> simp only [hch, BitVec.reduceToNat] at ha
    · omega
    · obtain rfl : k = 0 := by omega
      exact Option.isSome_of_eq_some (halpha hch)

theorem step_imageInv {s t : State} (hcount : CountInv s) (hs : ImageInv s) (h : step s = .next t) : ImageInv t := by
  refine step_preserves_of_emit h hs ?reset ?start ?reject ?accept ?emit
  case reset => exact imageInv_of_not_decoding nofun nofun
  case start => exact imageInv_of_not_decoding nofun nofun
  case reject => exact fun _ _ => imageInv_of_not_decoding nofun nofun
  case accept =>
    intro _ hd _ _ a ha
    have hnone : (startDecode hd s).pix.toNat * (startDecode hd s).outCh.toNat = 0 := Nat.zero_mul _
    omega
  case emit =>
    intro hf px run cur cache _ a ha
    obtain ⟨hhdr, hlt, -⟩ := hcount
    obtain ⟨-, -, -, -, hch⟩ := hhdr (.inl hf)
    have hpix : (emitPixel (setDatapath px run cur cache s)).pix.toNat = s.pix.toNat + 1 := pix_succ_toNat (hlt hf)
    have hemits : emits s (emitPixel (setDatapath px run cur cache s)) := emits_emitPixel rfl rfl rfl rfl rfl
    rw [hpix] at ha
    exact memRead_isSome_of_emits hemits hch (hs (.inl hf)) ha

/-! ### All of them, under every turn -/

theorem step_machineInv {s t : State} (hs : MachineInv s) (h : step s = .next t) : MachineInv t := by
  obtain ⟨hmem, hrun, hcursor, hcache, hcount, hresult, himage⟩ := hs
  exact ⟨step_memInv hmem h, step_runInv hrun h, step_cursorInv hcursor h, step_cacheInv hcache h,
    step_countInv hcount h, step_resultInv hresult h, step_imageInv hcount himage h⟩

/-- A write of OUT forgets no byte. -/
theorem memRead_memWrite_isSome {m : List Host.Cell} {x : Nat} (h : (memRead m x).isSome = true) (a : Nat) (v : Byte) :
    (memRead (memWrite m a v) x).isSome = true := by
  rw [memRead_memWrite]
  split
  · rfl
  · exact h

/-- A host move writes the pins, IN or OUT only, so it touches the memories' form and the image at most (R323, R324). -/
theorem hostMove_machineInv {m : HostMove} {s t : State} (hs : MachineInv s) (h : hostMove m s = .next t) :
    MachineInv t := by
  have ⟨⟨hin, hout⟩, hrun, hcursor, hcache, hcount, hresult, himage⟩ := hs
  rcases hostMove_next h with ⟨p, -, -, rfl⟩ | ⟨file, -, -, -, rfl⟩ | ⟨a, v, -, -, rfl⟩
  · exact hs
  · exact ⟨⟨memWf_memOfBytes 0 file, hout⟩, hrun, hcursor, hcache, hcount, hresult, himage⟩
  · exact ⟨⟨hin, memWf_memWrite hout a v⟩, hrun, hcursor, hcache, hcount, hresult,
      fun hf x hx => memRead_memWrite_isSome (himage hf x hx) a v⟩

theorem takeTurn_machineInv {s t : State} {e : Turn} (hs : MachineInv s) (h : takeTurn s e = .next t) :
    MachineInv t := by
  cases e with
  | block => exact step_machineInv hs h
  | host m => exact hostMove_machineInv hs h

/-- A list of turns that answers a state took its first turn and then the others. -/
theorem takeTurns_cons {s t : State} {e : Turn} {es : List Turn} (h : takeTurns s (e :: es) = .next t) :
    ∃ u, takeTurn s e = .next u ∧ takeTurns u es = .next t := by
  unfold takeTurns at h
  split at h
  · exact ⟨_, ‹_›, h⟩
  · cases h
  · cases h

theorem takeTurns_machineInv {s t : State} {turns : List Turn} (hs : MachineInv s)
    (h : takeTurns s turns = .next t) : MachineInv t := by
  induction turns generalizing s with
  | nil => cases h; exact hs
  | cons e es ih =>
    obtain ⟨u, hturn, hrest⟩ := takeTurns_cons h
    exact ih (takeTurn_machineInv hs hturn) hrest

end Sys2Proof.Safety
end

section
/-! PROOFS. The state family, part 3: its ten statements. -/

namespace Sys2Proof.Safety

open Sys2Proof Sys2Proof.Machine

/-! ### The invariants -/

/-- Settles O50: the cursor moves only where a chunk is read, which is before `len - 8`. -/
theorem stepKeepsCursorInRange : Obligations.StepKeepsCursorInRange := fun _ _ => step_cursorInv

/-- Settles O51: an op writes a pixel at the slot of its hash; what an INDEX then does follows from where its pixel
hashes to. -/
theorem stepKeepsCacheHashed : Obligations.StepKeepsCacheHashed := by
  refine ⟨fun _ _ => step_cacheInv, fun s t idx hs hf h => ?_⟩
  obtain rfl : t = finishOp .index (setPx (cacheRead s idx) s) := by
    rw [exec_eq] at h
    exact (Host.Outcome.next.inj h).symm
  refine ⟨fun hne => finishOp_index_cache_of_ne_zero hs hf hne, fun hz => ⟨?_, fun k hk hk0 => ?_⟩⟩
  · exact (finishOp_index_cache_of_zero hz 0 (by decide)).trans (if_pos rfl)
  · exact (finishOp_index_cache_of_zero hz k hk).trans (if_neg hk0)

/-- Settles O52: every T_PIXEL counts one pixel, and T_VALIDATE starts a decode only for a header that passed. -/
theorem stepKeepsPixelCount : Obligations.StepKeepsPixelCount := fun _ _ => step_countInv

/-- Settles O53: ERROR is entered with a nonzero code from VALIDATE, where the results are 0, and left by clearing. -/
theorem stepKeepsStatusLegal : Obligations.StepKeepsStatusLegal := fun _ _ => step_resultInv

/-- Settles O55: reset is IDLE with the results 0, both memories empty and `len` and `cur` 0. -/
theorem resetMeetsTheInvariants : Obligations.ResetMeetsTheInvariants :=
  ⟨⟨.nil, .nil⟩, runInv_of_not_decoding nofun nofun,
    cursorInv_of_not_decoding (Nat.two_pow_pos _) (Nat.two_pow_pos _) nofun nofun, cacheInv_of_not_decode nofun,
    countInv_of_not_decoding nofun nofun, resultInv_of_cleared nofun rfl rfl rfl rfl rfl,
    imageInv_of_not_decoding nofun nofun⟩

/-- Settles O56, by induction on the turns: every step and every host move keeps the seven invariants. -/
theorem everyRunKeepsTheInvariants : Obligations.EveryRunKeepsTheInvariants := fun _ _ _ => takeTurns_machineInv

/-! ### Reset, start, hold -/

/-- While busy, a step reads no input level but `rst` and `out_ready` (R31). -/
theorem step_setPins_of_busy {s : State} {p : HostPins} (hb : busy s = true) (hr : p.rst = s.pins.rst)
    (ho : p.outReady = s.pins.outReady) :
    step { s with pins := p } = mapNext (fun t => { t with pins := p }) (step s) := by
  refine step_map (fun t => { t with pins := p }) s rfl hr ho rfl rfl rfl (.inr hb) (fun _ => ?verdict)
    (fun _ _ _ => ?fetch) rfl (fun hidle => ?start) (fun _ => rfl) (fun _ => rfl) rfl rfl (fun i => ?op)
  case verdict => exact headerVerdict_congr rfl fun _ _ => rfl
  case fetch => exact fetchChunk_congr rfl rfl fun _ _ _ _ => rfl
  case start => simp [hb] at hidle
  case op => cases i <;> rfl

/-- Settles O4: T_START's writes are its definition, and a busy block does not sample the latched inputs again. -/
theorem startLatchesTheInputs : Obligations.StartLatchesTheInputs :=
  ⟨fun s hr hs hf => ⟨tStart s, step_start hr hs hf, rfl⟩, fun _ _ => step_setPins_of_busy⟩

/-- Settles O5, by induction on the number of steps: each is a T_HOLD. -/
theorem holdIsStable : Obligations.HoldIsStable := by
  intro s k hr hs hf
  induction k with
  | zero => rfl
  | succ k ih => rw [run_succ_next k (step_hold hr hs hf), ih]

/-- Settles O1: the values are those of `State.reset`, and all flags are 0 because it is IDLE. -/
theorem resetHasTheStatedValues : Obligations.ResetHasTheStatedValues :=
  ⟨rfl, rfl, rfl, rfl, rfl, rfl, (flags_eq_false_iff State.reset).2 rfl⟩

/-- Settles O8: each flag is a test of `fsm`, which has one value. -/
theorem statusFlagsFollowTheControlState : Obligations.StatusFlagsFollowTheControlState := by
  intro s
  refine ⟨busy_eq_true_iff s, done_eq_true_iff s, error_eq_true_iff s, ?_, ?_, ?_, flags_eq_false_iff s⟩ <;>
    simp only [busy_eq_true_iff, done_eq_true_iff, error_eq_true_iff] <;> rintro ⟨h, h'⟩ <;> simp [h'] at h

end Sys2Proof.Safety
end

section
/-! PROOFS. The memory family, part 1: which offsets of IN a step reads, what a step leaves of the two memories, what
stands on the output port, and what a host read answers. -/

namespace Sys2Proof.Machine

open Sys2Proof

/-! ### Stops -/

/-- An op fetch faults only where gathering the chunk does: every instruction answers a next state. -/
theorem fetchChunk_error_of_fetchExec {s : State} {f : Fault} (h : fetchExec s = .fault f) :
    fetchChunk s = .error f := by
  unfold fetchExec at h
  split at h
  · cases h; assumption
  · split at h
    · rw [exec_eq] at h; cases h
    · cases h

/-- An op fetch goes on, or waits for one of the five bytes from the cursor on (R162, R164). -/
theorem fetchExec_next_or_waits {s : State} (hc : s.cur < padStart s) :
    (∃ t, fetchExec s = .next t) ∨
    ∃ a, s.cur ≤ a ∧ a < s.cur + 5 ∧ memRead s.inMem a = none ∧ fetchExec s = .fault (.inputUnanswered a) := by
  rcases fetchExec_cases hc with ⟨i, -, -, -, -, he⟩ | ⟨x, -, -, he⟩
  · exact .inl ⟨_, he.trans (exec_eq i s)⟩
  · obtain ⟨a, hlow, hhigh, hf, hnone⟩ := fetchChunk_error (fetchChunk_error_of_fetchExec he) hc
    exact .inr ⟨a, hlow, hhigh, hnone, hf ▸ he⟩

/-- T_VALIDATE goes on, or waits for a header byte, and not below the least length (R131, R140). -/
theorem tValidate_next_or_waits (s : State) :
    (∃ t, tValidate s = .next t) ∨
    ∃ a, a < 14 ∧ 22 ≤ s.len ∧ memRead s.inMem a = none ∧ tValidate s = .fault (.inputUnanswered a) := by
  unfold tValidate
  split
  · obtain ⟨a, ha, hlen, rfl, hnone⟩ := headerVerdict_error ‹_›
    exact .inr ⟨a, ha, hlen, hnone, rfl⟩
  · exact .inl ⟨_, rfl⟩
  · exact .inl ⟨_, rfl⟩

/-! ### The output port -/

/-- A packed pixel is the big-endian word of its channels in reverse, so r is the low byte (R76). -/
theorem packPixel_toNat (p : Pixel) :
    (packPixel p).toNat = p.r.toNat + 256 * p.g.toNat + 65536 * p.b.toNat + 16777216 * p.a.toNat := by
  have hword : packPixel p = beWord p.a p.b p.g p.r := rfl
  rw [hword, beWord_toNat]
  omega

/-! ### Host reads of OUT -/

/-- While busy no byte of OUT is promised (R84). -/
theorem outPromised_busy {s : State} (h : busy s = true) (a : Nat) : outPromised s a = none := by
  simp [outPromised, h]

/-- A promised byte is what the host reads, and the read draws nothing. -/
theorem hostReadOut_of_promised {s : State} {a : Nat} {v : Byte} (h : outPromised s a = some v) :
    hostReadOut a s = (v, s) := by
  simp only [hostReadOut, h]

end Sys2Proof.Machine

namespace Sys2Proof.Safety

open Sys2Proof Sys2Proof.Machine

/-! ### Reading IN -/

/-- The offsets of IN that a step from `s` may wait for: the header's in VALIDATE (R140), and in DECODE the longest
chunk at the cursor, which ends before the padding does (R72). -/
def mayWaitFor (s : State) (a : Nat) : Prop :=
  (s.fsm = .validate ∧ a < 14 ∧ 22 ≤ s.len) ∨
  (s.fsm = .decode ∧ s.cur ≤ a ∧ a < s.cur + 5 ∧ a + 5 ≤ s.len)

/-- They all lie below `len` (R72). -/
theorem lt_len_of_mayWaitFor {s : State} {a : Nat} (h : mayWaitFor s a) : a < s.len := by
  rcases h with ⟨-, ha, hlen⟩ | ⟨-, -, -, hlen⟩ <;> omega

/-- Everything a step can answer: a next state, or the stop at an offset it waits for that the host has not placed. -/
theorem step_next_or_waits (s : State) :
    (∃ t, step s = .next t) ∨
    ∃ a, mayWaitFor s a ∧ memRead s.inMem a = none ∧ step s = .fault (.inputUnanswered a) := by
  cases hr : s.pins.rst
  case true => exact .inl ⟨_, step_reset hr⟩
  have host : (s.fsm = .idle ∨ s.fsm = .done ∨ s.fsm = .error) → ∃ t, step s = .next t := by
    intro hf
    cases hs : s.pins.start
    · exact ⟨_, step_hold hr hs hf⟩
    · exact ⟨_, step_start hr hs hf⟩
  cases hf : s.fsm
  case idle => exact .inl (host (.inl hf))
  case done => exact .inl (host (.inr (.inl hf)))
  case error => exact .inl (host (.inr (.inr hf)))
  case validate =>
    rw [step_validate hr hf]
    exact (tValidate_next_or_waits s).imp_right fun ⟨a, ha, hlen, hstop⟩ => ⟨a, .inl ⟨hf, ha, hlen⟩, hstop⟩
  case decode =>
    cases ho : s.pins.outReady
    case false => exact .inl ⟨_, step_stall hr hf ho⟩
    by_cases hn : 0 < s.run.toNat
    · exact .inl ⟨_, step_run hr hf ho hn⟩
    by_cases hc : s.cur < padStart s
    · rw [step_fetch hr hf ho hn hc]
      refine (fetchExec_next_or_waits hc).imp_right fun ⟨a, hlow, hhigh, hstop⟩ =>
        ⟨a, .inr ⟨hf, hlow, hhigh, ?_⟩, hstop⟩
      have hlen := lt_padStart_iff.1 hc
      omega
    · exact .inl ⟨_, step_exhausted hr hf ho hn hc⟩

/-- A step of a decode is the same on any IN that has the same bytes at the cursor (R72, R173). -/
theorem step_setInMem_of_decode {s : State} {m : List Host.Cell} (hf : s.fsm = .decode)
    (h : ∀ a, s.cur ≤ a → a < s.cur + 5 → a + 5 ≤ s.len → memRead m a = memRead s.inMem a) :
    step { s with inMem := m } = mapNext (fun t => { t with inMem := m }) (step s) := by
  refine step_map (fun t => { t with inMem := m }) s rfl rfl rfl rfl rfl rfl (.inl rfl) (fun hv => ?verdict)
    (fun _ _ hc => ?fetch) rfl (fun _ => rfl) (fun _ => rfl) (fun _ => rfl) rfl rfl (fun i => ?op)
  case verdict => simp [hf] at hv
  case fetch =>
    have hlen := lt_padStart_iff.1 hc
    exact fetchChunk_congr rfl rfl fun a hlow (hhigh : a < s.cur + 5) _ => h a hlow hhigh (by omega)
  case op => cases i <;> rfl

/-! ### What a step leaves of IN and OUT -/

/-- `t` has the input side of `s`: IN, the host's levels and IN_LEN_W. -/
def sameInput (s t : State) : Prop := t.inMem = s.inMem ∧ t.pins = s.pins ∧ t.inLenW = s.inLenW

/-- No transition writes the input side (R70). -/
theorem step_sameInput {s t : State} (h : step s = .next t) : sameInput s t :=
  step_preserves_of_emit h (P := sameInput s) ⟨rfl, rfl, rfl⟩ (reset := ⟨rfl, rfl, rfl⟩) (start := ⟨rfl, rfl, rfl⟩)
    (reject := fun _ _ => ⟨rfl, rfl, rfl⟩) (accept := fun _ _ _ => ⟨rfl, rfl, rfl⟩)
    (emit := fun _ _ _ _ _ => ⟨rfl, rfl, rfl⟩)

/-- From `s` to `t` no byte of OUT changes but those of the pixel that `s` counts next. -/
def changesOnlyThePixel (s t : State) : Prop :=
  ∀ x, memRead t.outMem x ≠ memRead s.outMem x →
    s.pix.toNat * s.outCh.toNat ≤ x ∧ x < (s.pix.toNat + 1) * s.outCh.toNat

theorem changesOnlyThePixel_of_outMem_eq {s t : State} (h : t.outMem = s.outMem) : changesOnlyThePixel s t :=
  fun x hx => absurd (congrArg (memRead · x) h) hx

/-- A pixel write stores `out_ch` bytes (R169). -/
theorem pixelBytes_eq_outCh {s : State} (h : s.outCh = 3#3 ∨ s.outCh = 4#3) : pixelBytes s = s.outCh.toNat := by
  rcases h with h | h <;> simp [pixelBytes, h]

/-- The pixel emitted goes to the bytes of the pixel counted (R80, R169). -/
theorem changesOnlyThePixel_of_emits {s t : State} (h : emits s t) (hch : s.outCh = 3#3 ∨ s.outCh = 4#3) :
    changesOnlyThePixel s t := by
  obtain ⟨-, -, -, -, -, -, hother⟩ := h
  intro x hx
  have hin := mt (hother x) hx
  have haddr : outAddress s = s.pix.toNat * s.outCh.toNat := portWrite_addr hch
  rw [haddr, pixelBytes_eq_outCh hch] at hin
  rw [Nat.succ_mul]
  omega

theorem step_changesOnlyThePixel {s t : State} (hs : CountInv s) (h : step s = .next t) :
    changesOnlyThePixel s t := by
  refine step_preserves_of_emit h ?same ?reset ?start ?reject ?accept ?emit
  case same => exact changesOnlyThePixel_of_outMem_eq rfl
  case reset => exact changesOnlyThePixel_of_outMem_eq rfl
  case start => exact changesOnlyThePixel_of_outMem_eq rfl
  case reject => exact fun _ _ => changesOnlyThePixel_of_outMem_eq rfl
  case accept => exact fun _ _ _ => changesOnlyThePixel_of_outMem_eq rfl
  case emit =>
    intro hf px run cur cache
    obtain ⟨-, -, -, -, hch⟩ := hs.1 (.inl hf)
    exact changesOnlyThePixel_of_emits (emits_emitPixel rfl rfl rfl rfl rfl) hch

/-- In DONE every byte of the image is in OUT (R83 d). -/
theorem memRead_image_of_done {s : State} {a : Nat} (hcount : CountInv s) (himage : ImageInv s) (hf : s.fsm = .done)
    (ha : a < s.total.toNat * s.outCh.toNat) : ∃ v, memRead s.outMem a = some v := by
  obtain ⟨-, -, hdone⟩ := hcount
  rw [← hdone hf] at ha
  exact Option.isSome_iff_exists.1 (himage (.inr hf) a ha)

end Sys2Proof.Safety
end

section
/-! PROOFS. The memory family, part 2: its nine statements. -/

namespace Sys2Proof.Safety

open Sys2Proof Sys2Proof.Machine

/-! ### Invariants -/

/-- Settles O48: no step writes IN, and a pixel write keeps the form of OUT. -/
theorem stepKeepsMemoriesCanonical : Obligations.StepKeepsMemoriesCanonical := fun _ _ => step_memInv

/-- Settles O54: the pixel counted is stored whole, and no byte already in OUT is forgotten. -/
theorem stepKeepsImageWritten : Obligations.StepKeepsImageWritten := fun _ _ => step_imageInv

/-! ### Reading IN -/

/-- Settles O39: the one stop there is names an offset below `len` that is not placed. -/
theorem everyStepGoesOnWithAPlacedInput : Obligations.EveryStepGoesOnWithAPlacedInput := by
  intro s hplaced
  refine (step_next_or_waits s).resolve_right ?_
  rintro ⟨a, hwait, hnone, -⟩
  have hsome := hplaced a (lt_len_of_mayWaitFor hwait)
  simp [hnone] at hsome

/-- Settles O40: a step goes on, or stops at an offset that `mayWaitFor` allows. -/
theorem stepsReadWithinTheInput : Obligations.StepsReadWithinTheInput := by
  intro s
  rcases step_next_or_waits s with ⟨t, ht⟩ | ⟨x, hwait, -, hx⟩
  · rw [ht]
    exact ⟨nofun, nofun, nofun⟩
  · rw [hx]
    refine ⟨nofun, nofun, fun a ha => ?_⟩
    cases ha
    exact hwait

/-- Settles O41: of all that decides a step of a decode, only the fetch reads IN. -/
theorem decodeStepReadsOnlyItsChunk : Obligations.DecodeStepReadsOnlyItsChunk := fun _ _ => step_setInMem_of_decode

/-- Settles O42: each transition leaves IN, the levels and IN_LEN_W by its definition. -/
theorem noStepWritesTheInput : Obligations.NoStepWritesTheInput := fun _ _ => step_sameInput

/-! ### Writing and reading OUT -/

/-- Settles O46: only the pixel counted is written, and in DECODE `pix` is below `total`. -/
theorem outputWritesStayInTheImage : Obligations.OutputWritesStayInTheImage := by
  intro s t x hcount hf h hx
  obtain ⟨hlow, hhigh⟩ := step_changesOnlyThePixel hcount h x hx
  have hpix : s.pix.toNat + 1 ≤ s.total.toNat := hcount.2.1 hf
  exact ⟨hlow, hhigh, hhigh.trans_le (Nat.mul_le_mul_right _ hpix)⟩

/-- Settles O47: in DONE the image is known and promised, and a promised byte is what the host reads. -/
theorem hostReadsTheImageWhenDone : Obligations.HostReadsTheImageWhenDone := by
  refine ⟨fun s a hcount himage hf ha => ?_, fun _ a hb => outPromised_busy hb a⟩
  obtain ⟨v, hv⟩ := memRead_image_of_done hcount himage hf ha
  have hpromised : outPromised s a = some v := by rw [outPromised_done hf, if_pos ha, hv]
  exact ⟨v, hv, hostReadOut_of_promised hpromised⟩

/-- Settles O30: the address does not wrap, and the lanes are the packed pixel's bytes. -/
theorem outputPortShowsThePixel : Obligations.OutputPortShowsThePixel :=
  fun s hch => ⟨portWrite_addr hch, packPixel_toNat s.px, rfl⟩

end Sys2Proof.Safety
end

section
/-! PROOFS. The encoding family: its five statements. The decoder has one equation for each op; encoding and decoding
agree because the fields tile the bytes they are cut from. -/

namespace Sys2Proof

/-! ### What the decoder answers, by the op of the op byte -/

theorem decodeOp_rgba {b0 : Byte} (h : opOf b0 = .rgba) (r g b a : Byte) (rest : List Byte) :
    decodeOp b0 (r :: g :: b :: a :: rest) = .ok (.rgba r g b a, rest) := by simp only [decodeOp, h]

theorem decodeOp_rgb {b0 : Byte} (h : opOf b0 = .rgb) (r g b : Byte) (rest : List Byte) :
    decodeOp b0 (r :: g :: b :: rest) = .ok (.rgb r g b, rest) := by simp only [decodeOp, h]

theorem decodeOp_index {b0 : Byte} (h : opOf b0 = .index) (rest : List Byte) :
    decodeOp b0 rest = .ok (.index (b0.extractLsb' 0 6), rest) := by simp only [decodeOp, h]

theorem decodeOp_diff {b0 : Byte} (h : opOf b0 = .diff) (rest : List Byte) :
    decodeOp b0 rest = .ok (.diff (b0.extractLsb' 4 2) (b0.extractLsb' 2 2) (b0.extractLsb' 0 2), rest) := by
  simp only [decodeOp, h]

theorem decodeOp_luma {b0 : Byte} (h : opOf b0 = .luma) (b1 : Byte) (rest : List Byte) :
    decodeOp b0 (b1 :: rest) =
      .ok (.luma (b0.extractLsb' 0 6) (b1.extractLsb' 4 4) (b1.extractLsb' 0 4), rest) := by simp only [decodeOp, h]

theorem decodeOp_run {b0 : Byte} (h : opOf b0 = .run) (rest : List Byte) :
    decodeOp b0 rest = .ok (.run (b0.extractLsb' 0 6), rest) := by simp only [decodeOp, h]

/-! ### The fields of a byte -/

theorem extract_diffFields (tag dr dg db : BitVec 2) :
    (tag ++ dr ++ dg ++ db).extractLsb' 4 2 = dr ∧ (tag ++ dr ++ dg ++ db).extractLsb' 2 2 = dg ∧
    (tag ++ dr ++ dg ++ db).extractLsb' 0 2 = db := by
  refine ⟨?_, ?_, BitVec.extractLsb'_append_eq_right⟩
  · rw [BitVec.extractLsb'_append_eq_of_le (by decide), BitVec.extractLsb'_append_eq_of_le (by decide)]
    exact BitVec.extractLsb'_append_eq_right
  · rw [BitVec.extractLsb'_append_eq_of_le (by decide)]
    exact BitVec.extractLsb'_append_eq_right

theorem class_append_lowSixBits (b0 : Byte) : b0.extractLsb' 6 2 ++ b0.extractLsb' 0 6 = b0 := by
  rw [BitVec.extractLsb'_append_extractLsb'_eq_extractLsb' (by rfl), BitVec.extractLsb'_eq_self]

theorem highNibble_append_lowNibble (b1 : Byte) : b1.extractLsb' 4 4 ++ b1.extractLsb' 0 4 = b1 := by
  rw [BitVec.extractLsb'_append_extractLsb'_eq_extractLsb' (by rfl), BitVec.extractLsb'_eq_self]

theorem class_append_diffFields (b0 : Byte) :
    b0.extractLsb' 6 2 ++ b0.extractLsb' 4 2 ++ b0.extractLsb' 2 2 ++ b0.extractLsb' 0 2 = b0 := by
  iterate 3 rw [BitVec.extractLsb'_append_extractLsb'_eq_extractLsb' (by rfl)]
  exact BitVec.extractLsb'_eq_self

/-! ### What an op byte selects -/

/-- The 2-bit class of an op's op bytes (R105); the full-byte tags FE and FF lie in the class of RUN. -/
def opClass : Op → BitVec 2
  | .index => 0b00#2
  | .diff => 0b01#2
  | .luma => 0b10#2
  | .run | .rgb | .rgba => 0b11#2

theorem opClass_opOf : ∀ b0 : Byte, opClass (opOf b0) = b0.extractLsb' 6 2 := by decide

theorem opOf_eq_rgba_iff : ∀ b0 : Byte, opOf b0 = .rgba ↔ b0 = 0xFF#8 := by decide

theorem opOf_eq_rgb_iff : ∀ b0 : Byte, opOf b0 = .rgb ↔ b0 = 0xFE#8 := by decide

/-- Settles O34: the dispatch of R105 evaluated at each of the 256 op bytes. -/
theorem everyOpByteSelectsOneOp : Obligations.EveryOpByteSelectsOneOp := by
  unfold Obligations.EveryOpByteSelectsOneOp
  decide

/-! ### From an instruction to its bytes and back -/

/-- Settles O36, by cases on the instruction: its op byte is dispatched to its op, and each field is read from where
it was put. -/
theorem decodeOfEncodeIsTheInstruction : Obligations.DecodeOfEncodeIsTheInstruction := by
  intro i rest hwf
  cases i with
  | rgba r g b a => exact decodeOp_rgba ((opOf_eq_rgba_iff _).2 rfl) r g b a rest
  | rgb r g b => exact decodeOp_rgb ((opOf_eq_rgb_iff _).2 rfl) r g b rest
  | index idx =>
    have hop : opOf (0b00#2 ++ idx) = .index := Option.some.inj (Laws.EncodeShape.index idx hwf).2
    exact (decodeOp_index hop rest).trans (by rw [BitVec.extractLsb'_append_eq_right])
  | diff drF dgF dbF =>
    have hop : opOf (0b01#2 ++ drF ++ dgF ++ dbF) = .diff := Option.some.inj (Laws.EncodeShape.diff drF dgF dbF hwf).2
    obtain ⟨hdr, hdg, hdb⟩ := extract_diffFields 0b01#2 drF dgF dbF
    exact (decodeOp_diff hop rest).trans (by rw [hdr, hdg, hdb])
  | luma dgF drdgF dbdgF =>
    have hop : opOf (0b10#2 ++ dgF) = .luma := Option.some.inj (Laws.EncodeShape.luma dgF drdgF dbdgF hwf).2
    exact (decodeOp_luma hop _ rest).trans (by
      rw [BitVec.extractLsb'_append_eq_right, BitVec.extractLsb'_append_eq_left, BitVec.extractLsb'_append_eq_right])
  | run rlF =>
    have hop : opOf (0b11#2 ++ rlF) = .run := Option.some.inj (Laws.EncodeShape.run rlF hwf).2
    exact (decodeOp_run hop rest).trans (by rw [BitVec.extractLsb'_append_eq_right])

/-! ### From bytes to an instruction and back -/

/-- What decodes splits into the operand bytes of its op, which alone give the instruction, and the bytes left over. -/
theorem operands_of_decodeOp {b0 : Byte} {bs rest : List Byte} {i : Instr} (h : decodeOp b0 bs = .ok (i, rest)) :
    i.op = opOf b0 ∧ i.wf = true ∧
      ∃ ops, ops.length = clen (opOf b0) - 1 ∧ bs = ops ++ rest ∧ decodeOp b0 ops = .ok (i, []) := by
  have hlen : (bs.take (clen (opOf b0) - 1)).length = clen (opOf b0) - 1 :=
    List.length_take_of_le (length_of_decodeOp h)
  obtain ⟨j, hj, hop, hwf⟩ := decodeOp_of_length hlen
  have hall := decodeOp_append hlen (bs.drop (clen (opOf b0) - 1)) hj
  rw [List.take_append_drop, h] at hall
  cases hall
  exact ⟨hop, hwf, _, hlen, (List.take_append_drop _ bs).symm, hj⟩

/-- An instruction is spelled by the op byte and the operand bytes it was decoded from. -/
theorem encode_of_decodeOp {b0 : Byte} {ops : List Byte} {i : Instr} (hlen : ops.length = clen (opOf b0) - 1)
    (h : decodeOp b0 ops = .ok (i, [])) : encode i = b0 :: ops := by
  have hclass := opClass_opOf b0
  cases hop : opOf b0 <;> rw [hop] at hlen hclass
  case rgba =>
    obtain ⟨r, g, b, a, rfl⟩ := List.length_eq_four.1 hlen
    rw [decodeOp_rgba hop] at h
    cases h
    rw [encode, (opOf_eq_rgba_iff b0).1 hop]
  case rgb =>
    obtain ⟨r, g, b, rfl⟩ := List.length_eq_three.1 hlen
    rw [decodeOp_rgb hop] at h
    cases h
    rw [encode, (opOf_eq_rgb_iff b0).1 hop]
  case index =>
    obtain rfl := List.length_eq_zero_iff.1 hlen
    rw [decodeOp_index hop] at h
    cases h
    rw [encode, show 0b00#2 = b0.extractLsb' 6 2 from hclass, class_append_lowSixBits]
  case diff =>
    obtain rfl := List.length_eq_zero_iff.1 hlen
    rw [decodeOp_diff hop] at h
    cases h
    rw [encode, show 0b01#2 = b0.extractLsb' 6 2 from hclass, class_append_diffFields]
  case luma =>
    obtain ⟨b1, rfl⟩ := List.length_eq_one_iff.1 hlen
    rw [decodeOp_luma hop] at h
    cases h
    rw [encode, show 0b10#2 = b0.extractLsb' 6 2 from hclass, class_append_lowSixBits, highNibble_append_lowNibble]
  case run =>
    obtain rfl := List.length_eq_zero_iff.1 hlen
    rw [decodeOp_run hop] at h
    cases h
    rw [encode, show 0b11#2 = b0.extractLsb' 6 2 from hclass, class_append_lowSixBits]

/-- Settles O37: the bytes read are the op byte and its operands, which spell the instruction. -/
theorem encodeOfDecodeIsTheBytes : Obligations.EncodeOfDecodeIsTheBytes := by
  intro bytes rest i h
  cases bytes with
  | nil => cases h
  | cons b0 bs =>
    obtain ⟨-, hwf, ops, hlen, rfl, hops⟩ := operands_of_decodeOp h
    rw [encode_of_decodeOp hlen hops]
    exact ⟨hwf, rfl⟩

/-! ### Lengths -/

theorem length_encode (i : Instr) : (encode i).length = clen i.op := by cases i <;> rfl

/-- Settles O35: a decoder that answers has taken the op byte and the operand bytes of its op. -/
theorem opByteFixesTheChunkLength : Obligations.OpByteFixesTheChunkLength := by
  refine ⟨rfl, rfl, rfl, rfl, rfl, rfl, fun b0 more rest i h => ?_, length_encode⟩
  obtain ⟨hop, -, ops, hlen, rfl, -⟩ := operands_of_decodeOp h
  have hpos := clen_pos (opOf b0)
  exact ⟨hop, by rw [List.length_cons, List.length_append]; omega⟩

/-! ### Words of the spec -/

/-- Settles O38: each word read by the decoder. -/
theorem specWordsDecode : Obligations.SpecWordsDecode := by
  unfold Obligations.SpecWordsDecode
  decide

end Sys2Proof
end

section
/-! PROOFS. The header validator family, part 1: the header bytes as the numbers the claims speak of, and what
T_VALIDATE answers for each verdict. -/

namespace Sys2Proof.Machine

open Sys2Proof

/-! ### What T_VALIDATE answers -/

theorem tValidate_of_reject {s : State} {e : HeaderError} (h : headerVerdict s = .ok (.error e)) :
    tValidate s = .next (raiseErr e s) := by
  simp only [tValidate, h]

theorem tValidate_of_accept {s : State} {hd : Header} (h : headerVerdict s = .ok (.ok hd)) :
    tValidate s = .next (startDecode hd s) := by
  simp only [tValidate, h]

/-- T_VALIDATE goes on only by the error entry or by the start of a decode (R130). -/
theorem tValidate_next {s t : State} (h : tValidate s = .next t) :
    (∃ e, headerVerdict s = .ok (.error e) ∧ t = raiseErr e s) ∨
    ∃ hd, headerVerdict s = .ok (.ok hd) ∧ t = startDecode hd s := by
  unfold tValidate at h
  split at h <;> cases h
  · exact .inl ⟨_, ‹_›, rfl⟩
  · exact .inr ⟨_, ‹_›, rfl⟩

/-- The length check comes before any read of IN (R131). -/
theorem headerVerdict_of_short {s : State} (h : s.len < 22) : headerVerdict s = .ok (.error .tooShort) := if_pos h

/-- Different errors have different codes (R280). -/
theorem errorCode_injective : Function.Injective errorCode := by
  intro e e'
  cases e <;> cases e' <;> decide

/-! ### The area check -/

/-- The other direction of `checkDims_some` for the area (R135). -/
theorem checkDims_of_area_above {ceiling : Nat} {w h : BitVec 32} (hw : w ≠ 0#32) (hh : h ≠ 0#32)
    (harea : ceiling < w.toNat * h.toNat) : checkDims ceiling w h = some .imageTooLarge := by
  simp only [checkDims, if_neg hw, if_neg hh, if_pos harea]

/-! ### The fields of the two mode bytes -/

/-- `src_ch` loses nothing of a legal channel byte (R136, R138). -/
theorem srcCh_toNat_of_legal {c : Byte} (hc : c = 3#8 ∨ c = 4#8) : (c.extractLsb' 0 3).toNat = c.toNat := by
  rcases hc with rfl | rfl <;> rfl

/-- R139, as a number. -/
theorem selectOutCh_toNat (s : State) {c : Byte} (hc : c = 3#8 ∨ c = 4#8) :
    (selectOutCh s c).toNat = if s.reqEn = false then c.toNat else if s.req4 = true then 4 else 3 := by
  unfold selectOutCh
  split
  · exact srcCh_toNat_of_legal hc
  · split <;> rfl

/-- A colorspace byte whose bits 7..4 are not 0 is 16 or more (R137). -/
theorem sixteen_le_of_highNibble_ne_zero {cs : Byte} (h : cs.extractLsb' 4 4 ≠ 0#4) : 16 ≤ cs.toNat := by
  by_contra hlt
  refine h (BitVec.eq_of_toNat_eq ?_)
  rw [BitVec.extractLsb'_toNat, Nat.shiftRight_eq_div_pow, Nat.div_eq_of_lt (by omega)]
  rfl

end Sys2Proof.Machine

namespace Sys2Proof.Safety

open Sys2Proof Sys2Proof.Machine

/-! ### Header bytes as numbers -/

theorem inByte_of_readIn {s : State} {a : Nat} {b : Byte} (h : readIn s a = .ok b) : inByte s a = b.toNat := by
  obtain ⟨-, hb⟩ := readIn_ok_iff.1 h
  simp only [inByte, hb]

theorem inWord_of_readU32be {s : State} {a : Nat} {w : BitVec 32} (h : readU32be s a = .ok w) :
    inWord s a = w.toNat := by
  obtain ⟨b0, b1, b2, b3, h0, h1, h2, h3, rfl⟩ := readU32be_ok_iff.1 h
  rw [beWord_toNat, inWord, inByte_of_readIn h0, inByte_of_readIn h1, inByte_of_readIn h2, inByte_of_readIn h3]
  omega

/-- The four bytes read are `qoif` exactly where the magic check does not fail (R132). -/
theorem eq_magicBytes_iff {s : State} {magic : List Byte} (h : readInBytes s 0 4 = .ok magic) :
    magic = magicBytes ↔ ¬ headerFails s .badMagic := by
  have hbyte : ∀ k (hk : k < magic.length), inByte s k = magic[k].toNat := fun k hk =>
    inByte_of_readIn (by simpa using readInBytes_getElem h k hk)
  match magic, readInBytes_length h, hbyte with
  | [b0, b1, b2, b3], _, hbyte =>
    have h0 : inByte s 0 = b0.toNat := hbyte 0 (by simp)
    have h1 : inByte s 1 = b1.toNat := hbyte 1 (by simp)
    have h2 : inByte s 2 = b2.toNat := hbyte 2 (by simp)
    have h3 : inByte s 3 = b3.toNat := hbyte 3 (by simp)
    simp [headerFails, magicBytes, h0, h1, h2, h3, BitVec.toNat_eq]

/-! ### Rejections and acceptances -/

/-- The check that the verdict names is one that fails (R131 to R137). -/
theorem headerFails_of_reject {s : State} {e : HeaderError} (hv : headerVerdict s = .ok (.error e)) :
    headerFails s e := by
  rcases headerVerdict_reject hv with ⟨rfl, hlen⟩ | ⟨-, magic, hmagic, ⟨rfl, hne⟩ |
    ⟨-, w, h, hw, hh, hdims | ⟨-, c, hc, hchannels | ⟨-, cs, hcs, hcolorspace⟩⟩⟩⟩
  · exact hlen
  · exact of_not_not (mt (eq_magicBytes_iff hmagic).2 hne)
  · rcases checkDims_some hdims with ⟨rfl, hzero⟩ | ⟨rfl, -, hzero⟩ | ⟨rfl, -, -, harea⟩
    · exact (inWord_of_readU32be hw).trans (congrArg BitVec.toNat hzero)
    · exact (inWord_of_readU32be hh).trans (congrArg BitVec.toNat hzero)
    · rwa [headerFails, inWord_of_readU32be hw, inWord_of_readU32be hh]
  · obtain ⟨rfl, hthree, hfour⟩ := checkChannels_some hchannels
    rw [headerFails, inByte_of_readIn hc]
    exact ⟨BitVec.toNat_ne.1 hthree, BitVec.toNat_ne.1 hfour⟩
  · obtain ⟨rfl, hnibble⟩ := checkColorspace_some hcolorspace
    rw [headerFails, inByte_of_readIn hcs]
    exact sixteen_le_of_highNibble_ne_zero hnibble

/-- A placed header none of whose checks fail is accepted (R138). -/
theorem headerVerdict_ok_of_not_headerFails {s : State} (hplaced : headerPlaced s) (hpass : ∀ e, ¬ headerFails s e) :
    ∃ hd, headerVerdict s = .ok (.ok hd) := by
  rcases hv : headerVerdict s with f | e | hd
  · obtain ⟨x, hx, -, -, hnone⟩ := headerVerdict_error hv
    simpa [hnone] using hplaced x hx
  · exact absurd (headerFails_of_reject hv) (hpass e)
  · exact ⟨hd, rfl⟩

/-- A step from VALIDATE is the same on any IN that has the same header (R140, R142). -/
theorem step_setInMem_of_validate {s : State} {m : List Host.Cell} (hf : s.fsm = .validate)
    (h : ∀ a, a < 14 → memRead m a = memRead s.inMem a) :
    step { s with inMem := m } = mapNext (fun t => { t with inMem := m }) (step s) := by
  refine step_map (fun t => { t with inMem := m }) s rfl rfl rfl rfl rfl rfl (.inl rfl) (fun _ => ?verdict)
    (fun hdecode => ?fetch) rfl (fun _ => rfl) (fun _ => rfl) (fun _ => rfl) rfl rfl (fun i => ?op)
  case verdict => exact headerVerdict_congr rfl h
  case fetch => simp [hf] at hdecode
  case op => cases i <;> rfl

end Sys2Proof.Safety
end

section
/-! PROOFS. The header validator family, part 2: its five statements. -/

namespace Sys2Proof.Safety

open Sys2Proof Sys2Proof.Machine

/-- Settles O9: the length check decides before a read, and code 1 is the code of that check alone. -/
theorem shortInputIsTooShort : Obligations.ShortInputIsTooShort := by
  intro s hf hr
  rw [step_validate hr hf]
  refine ⟨fun hshort => tValidate_of_reject (headerVerdict_of_short hshort), ?_⟩
  rintro hlen t ht ⟨hferr, hcode⟩
  rcases tValidate_next ht with ⟨e, hv, rfl⟩ | ⟨hd, -, rfl⟩
  · have he : e = .tooShort := errorCode_injective hcode
    subst he
    have hshort : s.len < 22 := headerFails_of_reject hv
    omega
  · cases hferr

/-- Settles O12: the accepted header's fields are the numbers in IN, and `startDecode` writes them. -/
theorem goodHeaderStartsTheDecode : Obligations.GoodHeaderStartsTheDecode := by
  intro s hf hr hplaced hpass
  obtain ⟨hd, hv⟩ := headerVerdict_ok_of_not_headerFails hplaced hpass
  obtain ⟨-, -, hw, hh, hc, hcs, -, -, hceil, hlegal, -⟩ := headerVerdict_ok hv
  obtain ⟨hcount, hpos, -⟩ := countInv_startDecode hv
  obtain ⟨-, hone, -⟩ := hcount (.inl rfl)
  refine ⟨startDecode hd s, (step_validate hr hf).trans (tValidate_of_accept hv), ?_⟩
  rw [inWord_of_readU32be hw, inWord_of_readU32be hh, inByte_of_readIn hc, inByte_of_readIn hcs]
  refine ⟨rfl, rfl, srcCh_toNat_of_legal hlegal, ?cs, selectOutCh_toNat s hlegal, startDecode_total_toNat hceil, hone,
    rfl, rfl, rfl, rfl, ?cache, rfl, (busy_eq_true_iff _).2 (.inr rfl), rfl⟩
  case cs => exact BitVec.extractLsb'_toNat ..
  case cache => exact fun k hk => Vector.getElem_replicate hk

/-- Settles O13: of all that decides a T_VALIDATE, only the verdict reads IN. -/
theorem verdictIgnoresChunksAndPadding : Obligations.VerdictIgnoresChunksAndPadding := fun _ _ =>
  step_setInMem_of_validate

/-- Settles O14: the area is tested last, on the product of the two numbers. -/
theorem areaCheckIsExact : Obligations.AreaCheckIsExact := by
  intro ceiling w h
  constructor
  · intro hlarge
    rcases checkDims_some hlarge with ⟨he, -⟩ | ⟨he, -⟩ | ⟨-, hw, hh, harea⟩
    · cases he
    · cases he
    · exact ⟨BitVec.toNat_ne.1 hw, BitVec.toNat_ne.1 hh, harea⟩
  · rintro ⟨hw, hh, harea⟩
    exact checkDims_of_area_above (BitVec.toNat_ne.2 hw) (BitVec.toNat_ne.2 hh) harea

/-- Settles O43: OUT is written only where a pixel is emitted, which is in DECODE. -/
theorem onlyDecodeWritesTheOutput : Obligations.OnlyDecodeWritesTheOutput := by
  intro s t h hne
  exact step_preserves_of_emit h (P := fun u => u.outMem = s.outMem) rfl (reset := rfl) (start := rfl)
    (reject := fun _ _ => rfl) (accept := fun _ _ _ => rfl) (emit := fun hf => absurd hf hne)

end Sys2Proof.Safety
end

section
/-! PROOFS. The pixel loop family, part 1: what a T_PIXEL does by the branch it takes, two machines that differ in their
output only, and a decode that runs on. -/

namespace Sys2Proof.Machine

open Sys2Proof

/-! ### What an op leaves -/

/-- Only RUN writes the run counter (R163). -/
theorem applyOp_run_of_ne_run {i : Instr} (s : State) (h : ∀ f, i ≠ .run f) : (applyOp i s).run = s.run := by
  cases i with
  | run f => exact absurd rfl (h f)
  | _ => rfl

/-- The fields an op can write (R163). -/
theorem finishOp_applyOp_frame (i : Instr) (s : State) :
    finishOp i.op (applyOp i s) =
      { s with
        px := (finishOp i.op (applyOp i s)).px
        run := (finishOp i.op (applyOp i s)).run
        cur := (finishOp i.op (applyOp i s)).cur
        cache := (finishOp i.op (applyOp i s)).cache
        outMem := (finishOp i.op (applyOp i s)).outMem
        pix := (finishOp i.op (applyOp i s)).pix
        fsm := (finishOp i.op (applyOp i s)).fsm } := by
  cases i <;> rfl

/-- The instruction fetched is one of the op that the byte at the cursor selects (R162, R163). -/
theorem fetchExec_next {s t : State} (hc : s.cur < padStart s) (h : fetchExec s = .next t) :
    ∃ b0 i, memRead s.inMem s.cur = some b0 ∧ i.op = opOf b0 ∧ t = finishOp i.op (applyOp i s) := by
  rcases fetchExec_cases hc with ⟨i, bs, -, hbs, hdecode, he⟩ | ⟨x, -, -, he⟩ <;> rw [he] at h
  · obtain ⟨b0, ops, rfl, hb0, -⟩ := fetchChunk_ok hbs
    obtain ⟨hop, -⟩ := operands_of_decodeOp hdecode
    rw [exec_eq] at h
    exact ⟨b0, i, (readIn_ok_iff.1 hb0).2, hop, (Host.Outcome.next.inj h).symm⟩
  · cases h

end Sys2Proof.Machine

namespace Sys2Proof.Safety

open Sys2Proof Sys2Proof.Machine

/-! ### The branches of a T_PIXEL -/

theorem step_of_run_pending {s : State} (hd : decoding s) (hn : 0 < s.run.toNat) : step s = .next (consumeRun s) := by
  obtain ⟨hf, hr, ho⟩ := hd
  exact step_run hr hf ho hn

theorem step_of_readsChunk {s : State} (hd : decoding s) (hc : readsChunk s) : step s = fetchExec s := by
  obtain ⟨hf, hr, ho⟩ := hd
  obtain ⟨hn, hcur⟩ := hc
  exact step_fetch hr hf ho (by omega) (lt_padStart_iff.2 hcur)

theorem step_of_exhausted {s : State} (hd : decoding s) (hn : s.run.toNat = 0) (hc : s.len ≤ s.cur + 8) :
    step s = .next (emitPixel s) := by
  obtain ⟨hf, hr, ho⟩ := hd
  exact step_exhausted hr hf ho (by omega) (by rw [lt_padStart_iff]; omega)

/-- A T_PIXEL that reads no op byte leaves the cursor and the cache (R165, R167). -/
theorem cur_cache_of_not_readsChunk {s t : State} (hd : decoding s) (hc : ¬ readsChunk s) (h : step s = .next t) :
    t.cur = s.cur ∧ t.cache = s.cache := by
  rcases decoding_step_cases hd h with ⟨-, -, rfl⟩ | ⟨hread, -⟩ | ⟨-, -, rfl⟩
  · exact ⟨rfl, rfl⟩
  · exact absurd hread hc
  · exact ⟨rfl, rfl⟩

/-- A chunk ends below `len`, so in a decode whose cursor is in range the cursor passes it without wrapping (R33). -/
theorem cur_of_chunkEnds {s t : State} {op : Op} (hs : CursorInv s) (hc : readsChunk s)
    (h : chunkEnds (clen op) s t) : t.cur = s.cur + clen op := by
  obtain ⟨hlen, -, -⟩ := hs
  obtain ⟨-, hbefore⟩ := hc
  obtain ⟨hcur, -, -⟩ := h
  have hle := clen_le op
  rw [hcur]
  exact Nat.mod_eq_of_lt (by omega)

/-- Whatever its branch, a T_PIXEL that the host lets run ends by emitting a pixel (R160). -/
theorem decoding_step_emits {s t : State} (hd : decoding s) (h : step s = .next t) :
    ∃ px run cur cache, t = emitPixel (setDatapath px run cur cache s) := by
  rcases decoding_step_cases hd h with ⟨-, -, rfl⟩ | ⟨-, i, -, rfl⟩ | ⟨-, -, rfl⟩
  · exact ⟨_, _, _, _, consumeRun_eq_emitPixel s⟩
  · exact finishOp_eq_emitPixel i s
  · exact ⟨s.px, s.run, s.cur, s.cache, rfl⟩

/-- A step of a decode that is not reset stalls or emits, so `err_code` stays and ERROR is not entered (R171). -/
theorem errCode_fsm_of_decode_step {s t : State} (hf : s.fsm = .decode) (hr : s.pins.rst = false)
    (h : step s = .next t) : t.errCode = s.errCode ∧ (t.fsm = .decode ∨ t.fsm = .done) := by
  cases ho : s.pins.outReady
  case false =>
    rw [step_stall hr hf ho] at h
    cases h
    exact ⟨rfl, .inl hf⟩
  case true =>
    obtain ⟨px, run, cur, cache, rfl⟩ := decoding_step_emits ⟨hf, hr, ho⟩ h
    exact ⟨rfl, (emitPixel_fsm (setDatapath px run cur cache s)).imp_left fun hkept => hkept.trans hf⟩

/-! ### Two machines that differ in their output only -/

/-- `s` with what was requested of the output, and the output itself, as `v` has them (R172). -/
def setOutputSide (v s : State) : State :=
  { s with
    pins := { s.pins with reqChEn := v.pins.reqChEn, reqCh4 := v.pins.reqCh4 }
    reqEn := v.reqEn
    req4 := v.req4
    outCh := v.outCh
    outMem := v.outMem
    outOpen := v.outOpen }

theorem onlyOutputDiffers_iff {s t : State} : onlyOutputDiffers s t ↔ ∃ v, t = setOutputSide v s := by
  constructor
  · exact fun h => ⟨t, h⟩
  · rintro ⟨v, rfl⟩
    rfl

/-- No op reads the output side (R163). -/
theorem exec_setOutputSide (v : State) (i : Instr) (s : State) :
    outcomesRelated onlyOutputDiffers (exec i s) (exec i (setOutputSide v s)) := by
  rw [exec_eq, exec_eq]
  cases i <;> exact rfl

/-- Nor does a fetch (R113). -/
theorem fetchExec_setOutputSide (v s : State) :
    outcomesRelated onlyOutputDiffers (fetchExec s) (fetchExec (setOutputSide v s)) := by
  have hfetch : fetchChunk (setOutputSide v s) = fetchChunk s := fetchChunk_congr rfl rfl fun _ _ _ _ => rfl
  unfold fetchExec
  rw [hfetch]
  split
  · exact rfl
  · split
    · exact exec_setOutputSide v _ s
    · exact rfl

/-- T_VALIDATE selects the output channels from the output side, and nothing else (R139). -/
theorem tValidate_setOutputSide (v s : State) :
    outcomesRelated onlyOutputDiffers (tValidate s) (tValidate (setOutputSide v s)) := by
  have hverdict : headerVerdict (setOutputSide v s) = headerVerdict s := headerVerdict_congr rfl fun _ _ => rfl
  unfold tValidate
  rw [hverdict]
  split <;> exact rfl

theorem outcomesRelated_of_next {rel : State → State → Prop} {s t s' t' : State} (hs : step s = .next s')
    (ht : step t = .next t') (h : rel s' t') : outcomesRelated rel (step s) (step t) := by
  rw [hs, ht]
  exact h

/-- Nothing that decides which branch a T_PIXEL takes is on the output side (R172). -/
theorem step_setOutputSide_of_decode (v : State) {s : State} (hr : s.pins.rst = false) (hf : s.fsm = .decode) :
    outcomesRelated onlyOutputDiffers (step s) (step (setOutputSide v s)) := by
  cases ho : s.pins.outReady
  case false => exact outcomesRelated_of_next (step_stall hr hf ho) (step_stall hr hf ho) rfl
  by_cases hn : 0 < s.run.toNat
  · exact outcomesRelated_of_next (step_run hr hf ho hn) (step_run hr hf ho hn) rfl
  by_cases hc : s.cur < padStart s
  · rw [step_fetch hr hf ho hn hc, step_fetch (s := setOutputSide v s) hr hf ho hn hc]
    exact fetchExec_setOutputSide v s
  · exact outcomesRelated_of_next (step_exhausted hr hf ho hn hc) (step_exhausted hr hf ho hn hc) rfl

/-- Nothing that decides which transition is enabled is on the output side (R30). -/
theorem step_setOutputSide (v s : State) :
    outcomesRelated onlyOutputDiffers (step s) (step (setOutputSide v s)) := by
  cases hr : s.pins.rst
  case true => exact outcomesRelated_of_next (step_reset hr) (step_reset hr) rfl
  have host (hf : s.fsm = .idle ∨ s.fsm = .done ∨ s.fsm = .error) :
      outcomesRelated onlyOutputDiffers (step s) (step (setOutputSide v s)) := by
    cases hs : s.pins.start
    · exact outcomesRelated_of_next (step_hold hr hs hf) (step_hold hr hs hf) rfl
    · exact outcomesRelated_of_next (step_start hr hs hf) (step_start hr hs hf) rfl
  cases hf : s.fsm
  case idle => exact host (.inl hf)
  case done => exact host (.inr (.inl hf))
  case error => exact host (.inr (.inr hf))
  case validate =>
    rw [step_validate hr hf, step_validate (s := setOutputSide v s) hr hf]
    exact tValidate_setOutputSide v s
  case decode => exact step_setOutputSide_of_decode v hr hf

/-- A relation that every step keeps is kept by runs of any length, up to the same stop. -/
theorem run_related {rel : State → State → Prop}
    (hstep : ∀ s t, rel s t → outcomesRelated rel (step s) (step t)) (k : Nat) {s t : State} (h : rel s t) :
    outcomesRelated rel (core.run k s) (core.run k t) := by
  induction k generalizing s t with
  | zero => exact h
  | succ k ih =>
    have hst := hstep s t h
    cases hs : step s <;> cases ht : step t <;> rw [hs, ht] at hst
    case next.next => rw [run_succ_next k hs, run_succ_next k ht]; exact ih hst
    case fault.fault => rw [run_succ_fault k hs, run_succ_fault k ht]; exact hst
    case refused.refused => rw [run_succ_refused k hs, run_succ_refused k ht]; exact hst
    all_goals exact hst.elim

/-! ### A decode that runs on -/

/-- A decode that the host lets run on a placed input, or the end of one, with consistent counts. -/
def runsOn (s : State) : Prop :=
  (s.fsm = .decode ∨ s.fsm = .done) ∧ s.pins.rst = false ∧ s.pins.outReady = true ∧ CountInv s ∧ inputPlaced s

/-- It is under way while pixels are missing (R168). -/
theorem fsm_of_pix_lt {s : State} (h : runsOn s) (hlt : s.pix.toNat < s.total.toNat) : s.fsm = .decode := by
  obtain ⟨hf, -, -, ⟨-, -, hdone⟩, -⟩ := h
  refine hf.resolve_right fun hfd => ?_
  rw [hdone hfd] at hlt
  exact lt_irrefl _ hlt

/-- It is at its end when none is missing (R168). -/
theorem fsm_of_pix_eq {s : State} (h : runsOn s) (heq : s.pix.toNat = s.total.toNat) : s.fsm = .done := by
  obtain ⟨hf, -, -, ⟨-, hlt, -⟩, -⟩ := h
  exact hf.resolve_left fun hfd => absurd heq (hlt hfd).ne

/-- While pixels are missing each step counts one, and the decode runs on (R168, R338). -/
theorem step_runsOn {s : State} (h : runsOn s) (hlt : s.pix.toNat < s.total.toNat) :
    ∃ t, step s = .next t ∧ runsOn t ∧ t.total = s.total ∧ t.pix.toNat = s.pix.toNat + 1 := by
  have hf := fsm_of_pix_lt h hlt
  obtain ⟨-, hr, ho, hcount, hplaced⟩ := h
  obtain ⟨t, ht⟩ := everyStepGoesOnWithAPlacedInput s hplaced
  have hcount' := step_countInv hcount ht
  obtain ⟨-, hf'⟩ := errCode_fsm_of_decode_step hf hr ht
  obtain ⟨px, run, cur, cache, rfl⟩ := decoding_step_emits ⟨hf, hr, ho⟩ ht
  exact ⟨_, ht, ⟨hf', hr, ho, hcount', hplaced⟩, rfl, pix_succ_toNat hlt⟩

/-- As many steps as pixels are missing, or fewer, count one pixel each. -/
theorem run_runsOn {s : State} (h : runsOn s) {k : Nat} (hk : s.pix.toNat + k ≤ s.total.toNat) :
    ∃ t, core.run k s = .next t ∧ runsOn t ∧ t.total = s.total ∧ t.pix.toNat = s.pix.toNat + k := by
  induction k with
  | zero => exact ⟨s, rfl, h, rfl, rfl⟩
  | succ k ih =>
    obtain ⟨t, hrun, ht, htotal, hpix⟩ := ih (by omega)
    obtain ⟨u, hu, hon, hutotal, hupix⟩ := step_runsOn ht (by rw [htotal]; omega)
    exact ⟨u, (run_add 1 hrun).trans (run_succ_next 0 hu), hon, hutotal.trans htotal, by omega⟩

end Sys2Proof.Safety
end

section
/-! PROOFS. The pixel loop family, part 2: its ten statements. -/

namespace Sys2Proof.Safety

open Sys2Proof Sys2Proof.Machine

/-! ### One T_PIXEL -/

/-- Settles O15: the chunk's own bytes decode to the same instruction as the whole list, and a fetch gathers them. -/
theorem stepRunsTheDecodedInstruction : Obligations.StepRunsTheDecodedInstruction := by
  intro s bytes rest i hd hc h hplaced
  cases bytes with
  | nil => cases h
  | cons b0 bs =>
    obtain ⟨-, hwf, ops, hlen, rfl, hops⟩ := operands_of_decodeOp h
    refine ⟨hwf, (step_of_readsChunk hd hc).trans (fetchExec_of_placed hlen (lt_padStart_iff.2 hc.2) ?_ hops)⟩
    intro k hk
    rw [hplaced k (by simp only [List.length_cons, List.length_append] at hk ⊢; omega)]
    exact congrArg some (List.getElem_append_left (as := b0 :: ops) hk)

/-- Settles O16: a T_PIXEL with a run pending is `consumeRun`, on any IN. -/
theorem pendingRunRepeatsThePixel : Obligations.PendingRunRepeatsThePixel := by
  intro s hd hn
  refine ⟨consumeRun s, step_of_run_pending hd hn, ?_, emits_consumeRun s, rfl,
    fun m => step_of_run_pending (s := { s with inMem := m }) hd hn⟩
  have hrun : (consumeRun s).run.toNat = s.run.toNat - 1 := run_pred_toNat hn
  omega

/-- Settles O17: a T_PIXEL with no chunk byte left is the shared end alone, on any IN. -/
theorem exhaustedStreamRepeatsThePixel : Obligations.ExhaustedStreamRepeatsThePixel := by
  intro s hd hn hc
  have hc' : s.len ≤ s.cur + 8 := by omega
  exact ⟨emitPixel s, step_of_exhausted hd hn hc', emits_emitPixel rfl rfl rfl rfl rfl, rfl,
    fun m => step_of_exhausted (s := { s with inMem := m }) hd hn hc'⟩

/-- Settles O18: a chunk's T_PIXEL ends by caching its pixel, and the other two branches do not touch the cache. -/
theorem onlyChunksWriteTheCache : Obligations.OnlyChunksWriteTheCache := by
  intro s t hd h
  refine ⟨fun hc => ?_, fun hc => (cur_cache_of_not_readsChunk hd hc h).2⟩
  rw [step_of_readsChunk hd hc] at h
  obtain ⟨-, i, -, -, rfl⟩ := fetchExec_next (lt_padStart_iff.2 hc.2) h
  obtain ⟨-, hcache, -⟩ := chunkEnds_finishOp i s
  exact hcache

/-- Settles O19: the chunk run is one of the op that the byte at the cursor selects, and its end does not wrap. -/
theorem cursorAdvancesByTheChunk : Obligations.CursorAdvancesByTheChunk := by
  intro s t b0 hd hs h
  refine ⟨fun hc hb0 => ?_, fun hc => (cur_cache_of_not_readsChunk hd hc h).1⟩
  rw [step_of_readsChunk hd hc] at h
  obtain ⟨b, i, hb, hop, rfl⟩ := fetchExec_next (lt_padStart_iff.2 hc.2) h
  obtain rfl : b = b0 := Option.some.inj (hb.symm.trans hb0)
  rw [cur_of_chunkEnds hs hc (chunkEnds_finishOp i s), hop]

/-- Settles O20: a step goes on or waits for a byte that is not placed, and one that goes on stalls or emits a pixel. -/
theorem decodeRaisesNoError : Obligations.DecodeRaisesNoError := by
  intro s hf hr
  rcases step_next_or_waits s with ⟨t, ht⟩ | ⟨a, -, hnone, hstop⟩
  · obtain ⟨herr, hfsm⟩ := errCode_fsm_of_decode_step hf hr ht
    exact .inl ⟨t, ht, herr, fun hs => herr.trans (errCode_eq_zero_of_resultInv hs (by simp [hf])), hfsm⟩
  · exact .inr ⟨a, hstop, hnone⟩

/-! ### One op, one pixel -/

/-- Settles O28: an op writes `px` or `run`, then the shared end of its T_PIXEL. -/
theorem opsLeaveAllElseUnchanged : Obligations.OpsLeaveAllElseUnchanged := by
  intro i s t h
  obtain rfl : t = finishOp i.op (applyOp i s) := by
    rw [exec_eq] at h
    exact (Host.Outcome.next.inj h).symm
  obtain ⟨-, hcache, -, -, -, -, -, -, hother⟩ := chunkEnds_finishOp i s
  refine ⟨finishOp_applyOp_frame i s, applyOp_run_of_ne_run s, ?px, hother, ?cache, ?fsm⟩
  case px =>
    rintro f rfl
    rfl
  case cache => exact fun k hk hne => (hcache k hk).trans (if_neg hne)
  case fsm => exact (finishOp_fsm i.op (applyOp i s)).imp_left fun hkept => hkept.trans (applyOp_fsm i s)

/-- Settles O29: the accepted write, at an address that does not wrap. -/
theorem pixelWriteStoresTheChannels : Obligations.PixelWriteStoresTheChannels := by
  intro s hch
  refine ⟨rfl, fun x => ?_⟩
  rw [← portWrite_addr hch]
  exact memRead_acceptWrite s s.outMem x

/-! ### Runs -/

/-- Settles O57, by induction on the number of steps: no transition decides anything by the output side. -/
theorem outputChannelsNeverAffectDecoding : Obligations.OutputChannelsNeverAffectDecoding := by
  refine fun k s t h => run_related (fun s t h => ?_) k h
  obtain ⟨v, rfl⟩ := onlyOutputDiffers_iff.1 h
  exact step_setOutputSide v s

/-- Settles O58, by induction on the number of steps: each counts a pixel, and the count decides between DECODE and
DONE. -/
theorem decodeTakesExactlyTotalPixels : Obligations.DecodeTakesExactlyTotalPixels := by
  rintro s ⟨hf, hr, ho⟩ hcount hplaced
  have hon : runsOn s := ⟨.inl hf, hr, ho, hcount, hplaced⟩
  have hlt : s.pix.toNat < s.total.toNat := hcount.2.1 hf
  constructor
  · intro k hk
    obtain ⟨t, hrun, ht, htotal, hpix⟩ := run_runsOn hon (k := k) (by omega)
    exact ⟨t, hrun, fsm_of_pix_lt ht (by rw [htotal]; omega), hpix⟩
  · obtain ⟨t, hrun, ht, htotal, hpix⟩ := run_runsOn hon (k := s.total.toNat - s.pix.toNat) (by omega)
    have hall : t.pix.toNat = t.total.toNat := by rw [htotal]; omega
    exact ⟨t, hrun, fsm_of_pix_eq ht hall, htotal ▸ BitVec.eq_of_toNat_eq hall⟩

end Sys2Proof.Safety
end

section
/-! PROOFS. The literal ops family: its two statements. An op's answer is what it writes to `px` and `run`, then the
shared end of its T_PIXEL. -/

namespace Sys2Proof.Safety

open Sys2Proof Sys2Proof.Machine

/-- What every op answers: `px` and `run` as the op wrote them, and the end of a T_PIXEL of its chunk's length
(R160, R163). -/
theorem exec_next_chunkEnds (i : Instr) (s : State) :
    ∃ t, exec i s = .next t ∧ t.px = (applyOp i s).px ∧ t.run = (applyOp i s).run ∧ chunkEnds (clen i.op) s t :=
  ⟨_, exec_eq i s, finishOp_px i.op _, finishOp_run i.op _, chunkEnds_finishOp i s⟩

/-- Only RGBA and INDEX write alpha (R190): RGB and the channel adders pass it through, RUN writes no pixel. -/
theorem applyOp_alpha_of_ne {i : Instr} (s : State) (hrgba : ∀ r g b a, i ≠ .rgba r g b a)
    (hindex : ∀ idx, i ≠ .index idx) : (applyOp i s).px.a = s.px.a := by
  cases i with
  | rgba r g b a => exact absurd rfl (hrgba r g b a)
  | index idx => exact absurd rfl (hindex idx)
  | rgb | diff | luma | run => rfl

/-- Settles O22: the chunk decodes to RGBA, RGBA writes the pixel it carries, and an op that is neither RGBA nor
INDEX writes the old alpha. -/
theorem rgbaReplacesAllChannels : Obligations.RgbaReplacesAllChannels := by
  refine ⟨decodeOp_rgba ((opOf_eq_rgba_iff _).2 rfl), fun r g b a => exec_next_chunkEnds (.rgba r g b a), ?_⟩
  intro i s t h hne
  obtain ⟨u, hu, hpx, -⟩ := exec_next_chunkEnds i s
  obtain rfl : t = u := Host.Outcome.next.inj (h.symm.trans hu)
  by_contra hother
  push Not at hother
  obtain ⟨hrgba, hindex⟩ := hother
  exact hne (hpx ▸ applyOp_alpha_of_ne s hrgba hindex)

/-- Settles O23: the chunk decodes to RGB, and RGB writes its three bytes over the pixel's r, g and b. -/
theorem rgbKeepsAlpha : Obligations.RgbKeepsAlpha :=
  ⟨decodeOp_rgb ((opOf_eq_rgb_iff _).2 rfl), fun r g b => exec_next_chunkEnds (.rgb r g b)⟩

end Sys2Proof.Safety
end

section
/-! PROOFS. The index op family: its two statements. An INDEX gives the entry of its slot, and a slot keeps its entry
until a chunk caches a pixel of that hash. -/

namespace Sys2Proof.Safety

open Sys2Proof Sys2Proof.Machine

/-! ### The op byte -/

theorem opOf_eq_index_of_le : ∀ b0 : Byte, b0.toNat ≤ 0x3F → opOf b0 = .index := by decide

/-- The class bits of an INDEX op byte are 0, so the byte is its own field (R107). -/
theorem lowSixBits_toNat_of_le {b0 : Byte} (h : b0.toNat ≤ 0x3F) : (b0.extractLsb' 0 6).toNat = b0.toNat := by
  rw [BitVec.extractLsb'_toNat, Nat.shiftRight_zero]
  exact Nat.mod_eq_of_lt (Nat.lt_succ_of_le h)

/-! ### One slot of the cache -/

theorem cacheRead_of_cachesPixel {s t : State} (h : cachesPixel s t) (slot : BitVec 6) :
    cacheRead t slot = if slot = pixelHash t.px then t.px else cacheRead s slot := by
  simpa only [cacheRead, BitVec.toNat_inj] using h slot.toNat slot.isLt

/-- In a decode under the cache invariant, a nonzero entry lies at the slot of its hash (R43). -/
theorem pixelHash_cacheRead_of_ne_zero {s : State} (hs : CacheInv s) (hf : s.fsm = .decode) {idx : BitVec 6}
    (hne : cacheRead s idx ≠ zeroPixel) : pixelHash (cacheRead s idx) = idx :=
  BitVec.eq_of_toNat_eq ((hs hf idx.toNat idx.isLt).resolve_left hne)

/-- In a decode that is not reset, a slot keeps its entry over a step that caches no pixel of that hash: a stall and the
T_PIXELs without a chunk write no slot, a chunk writes the slot of its pixel's hash alone (R167). -/
theorem cacheRead_step_of_hash_ne {slot : BitVec 6} {s t : State} (hf : s.fsm = .decode) (hr : s.pins.rst = false)
    (h : step s = .next t) (hne : readsChunk s → s.pins.outReady = true → pixelHash t.px ≠ slot) :
    cacheRead t slot = cacheRead s slot := by
  cases ho : s.pins.outReady
  case false =>
    rw [step_stall hr hf ho] at h
    cases h
    rfl
  case true =>
    obtain ⟨hchunk, hother⟩ := onlyChunksWriteTheCache s t ⟨hf, hr, ho⟩ h
    by_cases hc : readsChunk s
    · rw [cacheRead_of_cachesPixel (hchunk hc), if_neg (hne hc ho).symm]
    · simp only [cacheRead, hother hc]

theorem cacheRead_of_slotUntouched {slot : BitVec 6} {s u : State} (h : SlotUntouched slot s u) :
    cacheRead u slot = cacheRead s slot := by
  induction h with
  | refl s => rfl
  | step s t u hf hr hstep hne _ ih => exact ih.trans (cacheRead_step_of_hash_ne hf hr hstep hne)

/-! ### What an op that has answered did -/

/-- `exec_next_chunkEnds` for an answer already at hand. -/
theorem px_cachesPixel_of_exec {i : Instr} {s t : State} (h : exec i s = .next t) :
    t.px = (applyOp i s).px ∧ cachesPixel s t := by
  obtain ⟨u, hu, hpx, -, -, hcache, -⟩ := exec_next_chunkEnds i s
  obtain rfl : t = u := Host.Outcome.next.inj (h.symm.trans hu)
  exact ⟨hpx, hcache⟩

/-! ### The two statements -/

/-- Settles O24: the byte is its own field, the answer is that of every op, and the cache invariant says to which slot
the copied entry hashes. -/
theorem indexCopiesTheCacheEntry : Obligations.IndexCopiesTheCacheEntry := by
  refine ⟨fun b0 rest hb => ⟨_, lowSixBits_toNat_of_le hb, decodeOp_index (opOf_eq_index_of_le b0 hb) rest⟩, ?_⟩
  intro idx s
  refine ⟨_, exec_eq (.index idx) s, rfl, rfl, chunkEnds_finishOp (.index idx) s, fun hf hs => ⟨?nonzero, ?zero⟩⟩
  case nonzero =>
    exact fun hne => ⟨pixelHash_cacheRead_of_ne_zero hs hf hne, finishOp_index_cache_of_ne_zero hs hf hne⟩
  case zero => exact fun hz => (congrArg pixelHash hz).trans pixelHash_zero

/-- Settles O59: the op leaves its pixel at the slot of its hash, the steps between keep that slot, and the INDEX gives
its entry. -/
theorem indexReproducesTheCachedPixel : Obligations.IndexReproducesTheCachedPixel := by
  intro i s t u v hop hsteps hindex
  obtain ⟨-, hcached⟩ := px_cachesPixel_of_exec hop
  obtain ⟨hpx, -⟩ := px_cachesPixel_of_exec hindex
  calc v.px = cacheRead u (pixelHash t.px) := hpx
    _ = cacheRead t (pixelHash t.px) := cacheRead_of_slotUntouched hsteps
    _ = t.px := by rw [cacheRead_of_cachesPixel hcached, if_pos rfl]

end Sys2Proof.Safety
end

section
/-! PROOFS. The difference ops family: its three statements. A delta is read from the fields of the chunk's bytes, and
the channel adder of R230 applies it mod 256. -/

namespace Sys2Proof.Safety

open Sys2Proof Sys2Proof.Machine

/-! ### The fields of a byte, as numbers -/

theorem field_toNat (b : Byte) (lo width : Nat) : (b.extractLsb' lo width).toNat = b.toNat / 2 ^ lo % 2 ^ width := by
  rw [BitVec.extractLsb'_toNat, Nat.shiftRight_eq_div_pow]

theorem lowField_toNat (b : Byte) (width : Nat) : (b.extractLsb' 0 width).toNat = b.toNat % 2 ^ width := by
  rw [field_toNat, Nat.pow_zero, Nat.div_one]

theorem highNibble_toNat (b : Byte) : (b.extractLsb' 4 4).toNat = b.toNat / 16 :=
  (field_toNat b 4 4).trans (Nat.mod_eq_of_lt (Nat.div_lt_of_lt_mul b.isLt))

/-! ### The channel adder on the deltas of the two ops -/

/-- DIFF's adder (R231). -/
theorem addChannel_diffDelta_toNat (ch : Byte) (f : BitVec 2) :
    ((addChannel ch (diffDelta f)).toNat : Int) = ((ch.toNat : Int) + f.toNat - 2) % 256 := by
  rw [addChannel_toNat, diffDelta, Int.add_sub_assoc]

/-- LUMA's adder on red and blue (R232): the green delta first, then the nibble and its bias. -/
theorem addChannel_lumaOther_toNat (ch : Byte) (dgF : BitVec 6) (nibble : BitVec 4) :
    ((addChannel ch (lumaOther dgF nibble)).toNat : Int) =
      ((ch.toNat : Int) + ((dgF.toNat : Int) - 32) - 8 + nibble.toNat) % 256 := by
  rw [addChannel_toNat, lumaOther, lumaGreen, ← Int.add_assoc, Int.add_sub_assoc]

/-! ### The three statements -/

/-- Settles O31: the exact sum mod 256, in which the delta may be reduced first; the lanes are those of `addPixel`. -/
theorem channelAddersWrapMod256 : Obligations.ChannelAddersWrapMod256 :=
  ⟨fun ch d => ⟨addChannel_toNat ch d, (addChannel_toNat ch d).trans (Int.add_emod_emod ..).symm⟩,
    fun _ _ _ _ => ⟨rfl, rfl, rfl, rfl⟩⟩

/-- Settles O25: the op byte decodes to DIFF with its three fields, and DIFF's answer is that of every op, with one
adder per channel. -/
theorem diffAddsBiasedDeltas : Obligations.DiffAddsBiasedDeltas := by
  constructor
  · intro b0 rest hlo hhi
    obtain ⟨-, hdiff, -⟩ := everyOpByteSelectsOneOp b0
    exact ⟨_, _, _, field_toNat b0 4 2, field_toNat b0 2 2, lowField_toNat b0 2,
      decodeOp_diff (hdiff.2 ⟨hlo, hhi⟩) rest⟩
  · intro drF dgF dbF s
    obtain ⟨t, hexec, hpx, hrun, hends⟩ := exec_next_chunkEnds (.diff drF dgF dbF) s
    refine ⟨t, hexec, ?_⟩
    rw [hpx]
    exact ⟨addChannel_diffDelta_toNat s.px.r drF, addChannel_diffDelta_toNat s.px.g dgF,
      addChannel_diffDelta_toNat s.px.b dbF, rfl, hrun, hends⟩

/-- Settles O26: the two bytes decode to LUMA with its field and its two nibbles, and LUMA's answer is that of every op,
with one adder per channel. -/
theorem lumaAddsGreenRelativeDeltas : Obligations.LumaAddsGreenRelativeDeltas := by
  constructor
  · intro b0 b1 rest hlo hhi
    obtain ⟨-, -, hluma, -⟩ := everyOpByteSelectsOneOp b0
    exact ⟨_, _, _, lowField_toNat b0 6, highNibble_toNat b1, lowField_toNat b1 4,
      decodeOp_luma (hluma.2 ⟨hlo, hhi⟩) b1 rest⟩
  · intro dgF rn bn s
    obtain ⟨t, hexec, hpx, hrun, hends⟩ := exec_next_chunkEnds (.luma dgF rn bn) s
    refine ⟨t, hexec, ?_⟩
    rw [hpx]
    exact ⟨addChannel_lumaOther_toNat s.px.r dgF rn, addChannel_toNat s.px.g (lumaGreen dgF),
      addChannel_lumaOther_toNat s.px.b dgF bn, rfl, hrun, hends⟩

end Sys2Proof.Safety
end

section
/-! PROOFS. The run op family: its three statements. A RUN of field `f` loads the counter, and as long as pixels are
missing the next `f` T_PIXELs are `f` iterates of `consumeRun`. -/

namespace Sys2Proof.Safety

open Sys2Proof Sys2Proof.Machine

/-! ### Pixels in OUT -/

/-- OUT holds `p` as pixel `n`: its r, g and b, and its a iff `out_ch = 4` (R80, R169). -/
def holdsPixel (s : State) (n : Nat) (p : Pixel) : Prop :=
  memRead s.outMem (n * s.outCh.toNat) = some p.r ∧
  memRead s.outMem (n * s.outCh.toNat + 1) = some p.g ∧
  memRead s.outMem (n * s.outCh.toNat + 2) = some p.b ∧
  (s.outCh = 4#3 → memRead s.outMem (n * s.outCh.toNat + 3) = some p.a)

/-- The pixel emitted is in OUT as the pixel counted (R168, R169). -/
theorem holdsPixel_of_emits {s t : State} (h : emits s t) (hch : s.outCh = 3#3 ∨ s.outCh = 4#3)
    (hkeep : t.outCh = s.outCh) : holdsPixel t s.pix.toNat t.px := by
  obtain ⟨-, -, hr, hg, hb, ha, -⟩ := h
  rw [holdsPixel, hkeep, ← portWrite_addr hch]
  exact ⟨hr, hg, hb, ha⟩

/-- A pixel counted before is not written again (R82). -/
theorem holdsPixel_of_emits_of_lt {s t : State} {n : Nat} {p : Pixel} (h : emits s t)
    (hch : s.outCh = 3#3 ∨ s.outCh = 4#3) (hkeep : t.outCh = s.outCh) (hn : n < s.pix.toNat)
    (hs : holdsPixel s n p) : holdsPixel t n p := by
  have hnext : n * s.outCh.toNat + s.outCh.toNat ≤ s.pix.toNat * s.outCh.toNat :=
    (Nat.succ_mul n _).symm.le.trans (Nat.mul_le_mul_right _ hn)
  have hsame {x : Nat} (hx : x < n * s.outCh.toNat + s.outCh.toNat) : memRead t.outMem x = memRead s.outMem x := by
    by_contra hne
    obtain ⟨hlow, -⟩ := changesOnlyThePixel_of_emits h hch x hne
    omega
  have hwidth : 3 ≤ s.outCh.toNat := by rcases hch with hch | hch <;> simp [hch]
  obtain ⟨hr, hg, hb, ha⟩ := hs
  rw [holdsPixel, hkeep, hsame (by omega), hsame (by omega), hsame (by omega)]
  refine ⟨hr, hg, hb, fun h4 => ?_⟩
  have hwide : s.outCh.toNat = 4 := congrArg BitVec.toNat h4
  rw [hsame (by omega)]
  exact ha h4

/-- Every pixel counted from pixel `i` on is the current one. -/
def repeatsFrom (i : Nat) (s : State) : Prop := ∀ n, i ≤ n → n < s.pix.toNat → holdsPixel s n s.px

/-- One more pixel, the same again. -/
theorem repeatsFrom_of_emits {i : Nat} {s t : State} (h : emits s t) (hch : s.outCh = 3#3 ∨ s.outCh = 4#3)
    (hkeep : t.outCh = s.outCh) (hpx : t.px = s.px) (hlt : s.pix.toNat < s.total.toNat)
    (hs : repeatsFrom i s) : repeatsFrom i t := by
  intro n hi hn
  have ⟨hcounted, _⟩ := h
  have hpix : t.pix.toNat = s.pix.toNat + 1 := hcounted ▸ pix_succ_toNat hlt
  by_cases hlast : n = s.pix.toNat
  · exact hlast ▸ holdsPixel_of_emits h hch hkeep
  · have hn' : n < s.pix.toNat := by omega
    exact hpx ▸ holdsPixel_of_emits_of_lt h hch hkeep hn' (hs n hi hn')

/-! ### Consuming a run -/

/-- While pixels are missing, `s` is a decode that the host lets run. -/
def decodesOn (s : State) : Prop := s.pix.toNat < s.total.toNat → decoding s

/-- A decode that emits a pixel goes on unless that was the last (R168). -/
theorem decodesOn_emitPixel {s : State} (hd : decoding s) : decodesOn (emitPixel s) := by
  intro hmissing
  obtain ⟨hf, hr, ho⟩ := hd
  have hne : s.pix + 1#_ ≠ s.total := fun heq => hmissing.ne (congrArg BitVec.toNat heq)
  exact ⟨(if_neg hne).trans hf, hr, ho⟩

/-- As many steps as repeats are pending and pixels are missing, or fewer, each consume the run (R161). -/
theorem run_of_run_pending {s : State} {k : Nat} (hd : decodesOn s) (hrun : k ≤ s.run.toNat)
    (hpix : s.pix.toNat + k ≤ s.total.toNat) : core.run k s = .next (consumeRun^[k] s) := by
  induction k generalizing s with
  | zero => rfl
  | succ k ih =>
    have hlt : s.pix.toNat < s.total.toNat := by omega
    have hn : 0 < s.run.toNat := by omega
    have hrun' : (consumeRun s).run.toNat = s.run.toNat - 1 := run_pred_toNat hn
    have hpix' : (consumeRun s).pix.toNat = s.pix.toNat + 1 := pix_succ_toNat hlt
    have htotal : (consumeRun s).total = s.total := rfl
    rw [run_succ_next k (step_of_run_pending (hd hlt) hn), Function.iterate_succ_apply]
    exact ih (decodesOn_emitPixel (hd hlt)) (by omega) (by rw [htotal]; omega)

theorem iterate_consumeRun_run_toNat {s : State} {k : Nat} (hk : k ≤ s.run.toNat) :
    (consumeRun^[k] s).run.toNat = s.run.toNat - k := by
  induction k with
  | zero => rfl
  | succ k ih =>
    have hprev := ih (by omega)
    have hpred : (consumeRun (consumeRun^[k] s)).run.toNat = (consumeRun^[k] s).run.toNat - 1 :=
      run_pred_toNat (by omega)
    rw [Function.iterate_succ_apply', hpred]
    omega

/-- What each T_PIXEL of a run keeps, all of them keep: `px`, the cursor, the cache, `out_ch` and `total` (R161). -/
theorem iterate_consumeRun_kept (k : Nat) (s : State) :
    (consumeRun^[k] s).px = s.px ∧ (consumeRun^[k] s).cur = s.cur ∧ (consumeRun^[k] s).cache = s.cache ∧
    (consumeRun^[k] s).outCh = s.outCh ∧ (consumeRun^[k] s).total = s.total := by
  induction k with
  | zero => exact ⟨rfl, rfl, rfl, rfl, rfl⟩
  | succ k ih =>
    rw [Function.iterate_succ_apply']
    exact ih

/-- A run is consumed in the same way on any IN (R161). -/
theorem iterate_consumeRun_setInMem (m : List Host.Cell) (k : Nat) (s : State) :
    consumeRun^[k] { s with inMem := m } = { consumeRun^[k] s with inMem := m } := by
  have hcommute : Function.Semiconj (fun t : State => { t with inMem := m }) consumeRun consumeRun := fun _ => rfl
  exact (hcommute.iterate_right k s).symm

/-- Up to the end of the image a run counts one pixel each time, the same one again (R161, R168). -/
theorem iterate_consumeRun_repeats {i : Nat} {s : State} {k : Nat} (hch : s.outCh = 3#3 ∨ s.outCh = 4#3)
    (hk : s.pix.toNat + k ≤ s.total.toNat) (hs : repeatsFrom i s) :
    (consumeRun^[k] s).pix.toNat = s.pix.toNat + k ∧ repeatsFrom i (consumeRun^[k] s) := by
  induction k with
  | zero => exact ⟨rfl, hs⟩
  | succ k ih =>
    obtain ⟨hpix, hrep⟩ := ih (by omega)
    obtain ⟨-, -, -, hkeep, htotal⟩ := iterate_consumeRun_kept k s
    have hlt : (consumeRun^[k] s).pix.toNat < (consumeRun^[k] s).total.toNat := by rw [htotal]; omega
    have hsucc : (consumeRun (consumeRun^[k] s)).pix.toNat = (consumeRun^[k] s).pix.toNat + 1 := pix_succ_toNat hlt
    rw [Function.iterate_succ_apply']
    exact ⟨by omega, repeatsFrom_of_emits (emits_consumeRun _) (hkeep.symm ▸ hch) rfl rfl hlt hrep⟩

/-- What a RUN answers while pixels are missing: a decode that goes on with the field pending, and the pixel it was read
at, the next one counted, in OUT (R260). -/
theorem decodesOn_repeatsFrom_of_exec_run {f : BitVec 6} {s t : State} (hd : decoding s)
    (hch : s.outCh = 3#3 ∨ s.outCh = 4#3) (hlt : s.pix.toNat < s.total.toNat) (h : exec (.run f) s = .next t) :
    decodesOn t ∧ t.run = f ∧ t.px = s.px ∧ t.outCh = s.outCh ∧ t.total = s.total ∧
    t.pix.toNat = s.pix.toNat + 1 ∧ repeatsFrom s.pix.toNat t := by
  obtain rfl : t = finishOp .run (setRun f s) := by
    rw [exec_eq] at h
    exact (Host.Outcome.next.inj h).symm
  obtain ⟨-, -, hemits⟩ := chunkEnds_finishOp (.run f) s
  have hnone : repeatsFrom s.pix.toNat s := fun n hle hn => absurd hn hle.not_gt
  exact ⟨decodesOn_emitPixel (s := updateCache (advanceCur 1 (setRun f s))) hd, rfl, rfl, rfl, rfl,
    pix_succ_toNat hlt, repeatsFrom_of_emits hemits hch rfl rfl hlt hnone⟩

/-! ### The three statements -/

/-- Settles O49: a decode starts at 0, RUN loads a well-formed field, and a run counts down from above 0. -/
theorem stepKeepsRunInRange : Obligations.StepKeepsRunInRange := fun _ _ => step_runInv

/-- Settles O27: below FE the op byte is C0 and its field, and RUN's answer is that of every op. -/
theorem runLoadsTheCounter : Obligations.RunLoadsTheCounter := by
  constructor
  · intro b0 rest hlo hhi
    obtain ⟨-, -, -, hop, -, -⟩ := everyOpByteSelectsOneOp b0
    have hrun : opOf b0 = .run := hop.2 ⟨hlo, hhi⟩
    refine ⟨_, ?_, run_field_le b0 hrun, decodeOp_run hrun rest⟩
    rw [lowField_toNat]
    omega
  · intro rlF s
    obtain ⟨t, hexec, hpx, hrun, hends⟩ := exec_next_chunkEnds (.run rlF) s
    exact ⟨t, hexec, hrun, hpx, hends⟩

/-- Settles O60: RUN emits the pixel it was read at and loads `f`, and the next `k` steps are `k` iterates of
`consumeRun`, which reads no IN, writes no cache and emits `px` once more. -/
theorem runRepeatsThePixelFieldTimes : Obligations.RunRepeatsThePixelFieldTimes := by
  intro f s t k hd hcount h hk hend
  have ⟨hf, _, _⟩ := hd
  obtain ⟨hheader, -⟩ := hcount
  obtain ⟨-, -, -, -, hch⟩ := hheader (.inl hf)
  obtain ⟨hon, hrun, hpx, hkeep, htotal, hpix, hfirst⟩ := decodesOn_repeatsFrom_of_exec_run hd hch (by omega) h
  have hpending : k ≤ t.run.toNat := hrun ▸ hk
  have hroom : t.pix.toNat + k ≤ t.total.toNat := by rw [hpix, htotal]; exact hend
  obtain ⟨hpx', hcur, hcache, hkeep', -⟩ := iterate_consumeRun_kept k t
  obtain ⟨hcounted, hrep⟩ := iterate_consumeRun_repeats (hkeep.symm ▸ hch) hroom hfirst
  rw [hpix] at hcounted
  refine ⟨consumeRun^[k] t, run_of_run_pending hon hpending hroom, hpx'.trans hpx, hcur, hcache,
    hrun ▸ iterate_consumeRun_run_toNat hpending, hcounted, fun m => ?anyInput, fun j hj => ?pixels⟩
  case anyInput =>
    rw [← iterate_consumeRun_setInMem]
    exact run_of_run_pending (s := { t with inMem := m }) hon hpending hroom
  case pixels =>
    have hin := hrep (s.pix.toNat + j) (Nat.le_add_right _ _) (by omega)
    rwa [holdsPixel, hpx', hpx, hkeep', hkeep] at hin

end Sys2Proof.Safety
end

section
/-! PROOFS. The exceptions family: its five statements. A step into ERROR is a hold of ERROR or the error entry of a
T_VALIDATE; the verdict is the first failing check, because the checks before it have passed one after the other. -/

namespace Sys2Proof.Safety

open Sys2Proof Sys2Proof.Machine

/-! ### Entering ERROR -/

/-- A step that ends in ERROR held it, or is a T_VALIDATE that rejects the header (R281, R285). -/
theorem step_error_cases {s t : State} (h : step s = .next t) (ht : t.fsm = .error) :
    (s.fsm = .error ∧ t = s) ∨ (s.fsm = .validate ∧ s.pins.rst = false ∧ ∃ e, t = raiseErr e s) := by
  by_cases hdecode : s.fsm = .decode ∧ s.pins.rst = false
  · obtain ⟨hf, hr⟩ := hdecode
    obtain ⟨-, hstay⟩ := errCode_fsm_of_decode_step hf hr h
    simp [ht] at hstay
  · rcases step_cases h with ⟨-, rfl⟩ | ⟨-, -, -, rfl⟩ | ⟨-, -, -, rfl⟩ | ⟨hr, hf, e, -, rfl⟩ |
      ⟨-, -, hd, -, rfl⟩ | hpixel
    · cases ht
    · cases ht
    · exact .inl ⟨ht, rfl⟩
    · exact .inr ⟨hf, hr, e, rfl⟩
    · cases ht
    · exact absurd (by tauto) hdecode

/-! ### Checks passed in the order of the codes -/

theorem inWord_ne_zero_of_readU32be {s : State} {a : Nat} {w : BitVec 32} (h : readU32be s a = .ok w)
    (hw : w ≠ 0#32) : inWord s a ≠ 0 := by
  rw [inWord_of_readU32be h]
  exact BitVec.toNat_ne.1 hw

/-- No check with a code below `n` fails. -/
def passesBelow (s : State) (n : Nat) : Prop := ∀ e, (errorCode e).toNat < n → ¬ headerFails s e

/-- No check comes before the one of code 1 (R280). -/
theorem passesBelow_one (s : State) : passesBelow s 1 := fun e hlt =>
  absurd (Nat.lt_one_iff.1 hlt) (BitVec.toNat_ne.1 (errorCode_ne_zero e))

/-- The check of one code more is passed. -/
theorem passesBelow_succ {s : State} {e : HeaderError} (h : passesBelow s (errorCode e).toNat)
    (hpass : ¬ headerFails s e) : passesBelow s ((errorCode e).toNat + 1) := by
  intro e' hlt
  rcases Nat.lt_succ_iff_lt_or_eq.1 hlt with hbefore | hsame
  · exact h e' hbefore
  · rwa [errorCode_injective (BitVec.eq_of_toNat_eq hsame)]

/-- Codes have three bits, so below 8 are all checks. -/
theorem not_headerFails_of_passesBelow_eight {s : State} (h : passesBelow s 8) (e : HeaderError) : ¬ headerFails s e :=
  h e (errorCode e).isLt

/-- A length from 22 on passes the first check (R131). -/
theorem passesBelow_badMagic {s : State} (hlen : 22 ≤ s.len) : passesBelow s (errorCode .badMagic).toNat :=
  passesBelow_succ (e := .tooShort) (passesBelow_one s) hlen.not_gt

/-- The magic passes the second (R132). -/
theorem passesBelow_illegalWidth {s : State} (hlen : 22 ≤ s.len) (hmagic : readInBytes s 0 4 = .ok magicBytes) :
    passesBelow s (errorCode .illegalWidth).toNat :=
  passesBelow_succ (e := .badMagic) (passesBelow_badMagic hlen) ((eq_magicBytes_iff hmagic).1 rfl)

/-- A width that is not 0 passes the third (R133). -/
theorem passesBelow_illegalHeight {s : State} {w : BitVec 32} (h : passesBelow s (errorCode .illegalWidth).toNat)
    (hread : readU32be s 4 = .ok w) (hw : w ≠ 0#32) : passesBelow s (errorCode .illegalHeight).toNat :=
  passesBelow_succ (e := .illegalWidth) h (inWord_ne_zero_of_readU32be hread hw)

/-- A height that is not 0 passes the fourth (R134). -/
theorem passesBelow_imageTooLarge {s : State} {h' : BitVec 32} (h : passesBelow s (errorCode .illegalHeight).toNat)
    (hread : readU32be s 8 = .ok h') (hh : h' ≠ 0#32) : passesBelow s (errorCode .imageTooLarge).toNat :=
  passesBelow_succ (e := .illegalHeight) h (inWord_ne_zero_of_readU32be hread hh)

/-- An area up to the ceiling passes the fifth (R135). -/
theorem passesBelow_illegalChannels {s : State} {w h' : BitVec 32} (h : passesBelow s (errorCode .imageTooLarge).toNat)
    (hw : readU32be s 4 = .ok w) (hh : readU32be s 8 = .ok h') (harea : w.toNat * h'.toNat ≤ Config.pixelCeiling) :
    passesBelow s (errorCode .illegalChannels).toNat := by
  refine passesBelow_succ (e := .imageTooLarge) h ?_
  rw [headerFails, inWord_of_readU32be hw, inWord_of_readU32be hh]
  exact harea.not_gt

/-- A legal channel byte passes the sixth (R136). -/
theorem passesBelow_illegalColorspace {s : State} {c : Byte} (h : passesBelow s (errorCode .illegalChannels).toNat)
    (hread : readIn s 12 = .ok c) (hc : c = 3#8 ∨ c = 4#8) : passesBelow s (errorCode .illegalColorspace).toNat := by
  refine passesBelow_succ (e := .illegalChannels) h ?_
  rw [headerFails, inByte_of_readIn hread]
  rcases hc with rfl | rfl <;> decide

/-- A colorspace byte with bits 7..4 zero passes the seventh (R137). -/
theorem passesBelow_eight {s : State} {cs : Byte} (h : passesBelow s (errorCode .illegalColorspace).toNat)
    (hread : readIn s 13 = .ok cs) (hcs : cs.extractLsb' 4 4 = 0#4) : passesBelow s 8 := by
  refine passesBelow_succ (e := .illegalColorspace) h ?_
  rw [headerFails, inByte_of_readIn hread]
  have hdiv : cs.toNat / 16 = 0 := (highNibble_toNat cs).symm.trans (congrArg BitVec.toNat hcs)
  omega

/-- The check that the verdict names is the first that fails (R282). -/
theorem firstFailure_of_reject {s : State} {e : HeaderError} (hv : headerVerdict s = .ok (.error e)) :
    firstFailure s e := by
  refine ⟨headerFails_of_reject hv, ?_⟩
  rcases headerVerdict_reject hv with ⟨rfl, -⟩ | ⟨hlen, magic, hmagic, ⟨rfl, -⟩ |
    ⟨rfl, w, h, hw, hh, hrest⟩⟩
  · exact passesBelow_one s
  · exact passesBelow_badMagic hlen
  have hmagicPassed := passesBelow_illegalWidth hlen hmagic
  rcases hrest with hdims | ⟨hdims, hrest⟩
  · rcases checkDims_some hdims with ⟨rfl, -⟩ | ⟨rfl, hwne, -⟩ | ⟨rfl, hwne, hhne, -⟩
    · exact hmagicPassed
    · exact passesBelow_illegalHeight hmagicPassed hw hwne
    · exact passesBelow_imageTooLarge (passesBelow_illegalHeight hmagicPassed hw hwne) hh hhne
  obtain ⟨hwne, hhne, harea⟩ := checkDims_none hdims
  have hsidesPassed := passesBelow_imageTooLarge (passesBelow_illegalHeight hmagicPassed hw hwne) hh hhne
  have hareaPassed := passesBelow_illegalChannels hsidesPassed hw hh harea
  obtain ⟨c, hc, hchannels | ⟨hchannels, cs, -, hcolorspace⟩⟩ := hrest
  · obtain ⟨rfl, -⟩ := checkChannels_some hchannels
    exact hareaPassed
  · obtain ⟨rfl, -⟩ := checkColorspace_some hcolorspace
    exact passesBelow_illegalColorspace hareaPassed hc (checkChannels_none hchannels)

/-- A header that is accepted fails no check (R138). -/
theorem not_headerFails_of_accept {s : State} {hd : Header} (hv : headerVerdict s = .ok (.ok hd)) (e : HeaderError) :
    ¬ headerFails s e := by
  obtain ⟨hlen, hmagic, hw, hh, hc, hcs, hwne, hhne, harea, hlegal, hnibble⟩ := headerVerdict_ok hv
  have hmagicPassed := passesBelow_illegalWidth hlen hmagic
  have hsidesPassed := passesBelow_imageTooLarge (passesBelow_illegalHeight hmagicPassed hw hwne) hh hhne
  have hareaPassed := passesBelow_illegalChannels hsidesPassed hw hh harea
  have hchannelsPassed := passesBelow_illegalColorspace hareaPassed hc hlegal
  exact not_headerFails_of_passesBelow_eight (passesBelow_eight hchannelsPassed hcs hnibble) e

/-- There is one first failure: of two, neither comes before the other. -/
theorem firstFailure_unique {s : State} {e e' : HeaderError} (h : firstFailure s e) (h' : firstFailure s e') :
    e = e' := by
  obtain ⟨hfails, hbefore⟩ := h
  obtain ⟨hfails', hbefore'⟩ := h'
  have hle : (errorCode e').toNat ≤ (errorCode e).toNat := not_lt.1 fun hlt => hbefore' e hlt hfails
  have hge : (errorCode e).toNat ≤ (errorCode e').toNat := not_lt.1 fun hlt => hbefore e' hlt hfails'
  exact errorCode_injective (BitVec.eq_of_toNat_eq (le_antisymm hge hle))

/-- On a placed header T_VALIDATE waits for no byte (R140). -/
theorem tValidate_next_of_headerPlaced {s : State} (hplaced : headerPlaced s) : ∃ t, tValidate s = .next t := by
  rcases tValidate_next_or_waits s with hnext | ⟨a, ha, -, hnone, -⟩
  · exact hnext
  · simpa [hnone] using hplaced a ha

/-! ### What a start leaves promised -/

/-- Outside busy the host is promised every known byte but those a T_START would leave open: the start of a
decode settles the image of the one before (R83 d, R284). -/
theorem outPromised_eq_of_not_busy {s : State} (hf : s.fsm = .idle ∨ s.fsm = .done ∨ s.fsm = .error) (a : Nat) :
    outPromised s a = if offsetIn (outOpenAfter s) a = true then none else memRead s.outMem a := by
  rcases hf with hf | hf | hf
  · rw [outPromised_idle_error (.inl hf), outOpenAfter, hf]
  · rw [outPromised_done hf, outOpenAfter, hf]
    by_cases ha : a < s.total.toNat * s.outCh.toNat <;> simp [offsetIn_offsetsRemove, ha]
  · rw [outPromised_idle_error (.inr hf), outOpenAfter, hf]

/-! ### The five statements -/

/-- Settles O6: from ERROR a step is T_RESET, T_START or T_HOLD, by the levels of `rst` and `start`. -/
theorem errorIsLeftByStartOrResetOnly : Obligations.ErrorIsLeftByStartOrResetOnly := by
  intro s t hf h
  have hrest : s.fsm = .idle ∨ s.fsm = .done ∨ s.fsm = .error := .inr (.inr hf)
  cases hr : s.pins.rst
  case true =>
    obtain rfl := Host.Outcome.next.inj ((step_reset hr).symm.trans h)
    exact ⟨nofun, nofun, fun _ => ⟨rfl, rfl⟩, fun _ => .inr rfl, nofun⟩
  case false =>
    cases hs : s.pins.start
    case true =>
      obtain rfl := Host.Outcome.next.inj ((step_start hr hs hrest).symm.trans h)
      exact ⟨nofun, fun _ _ => ⟨rfl, rfl⟩, nofun, fun _ => .inl rfl, nofun⟩
    case false =>
      obtain rfl := Host.Outcome.next.inj ((step_hold hr hs hrest).symm.trans h)
      exact ⟨fun _ _ => rfl, nofun, nofun, fun hleft => absurd hf hleft, fun _ => rfl⟩

/-- Settles O7: T_VALIDATE has two ends, T_PIXEL stays or is done, and neither samples `start`. -/
theorem onlyResetStopsADecodeEarly : Obligations.OnlyResetStopsADecodeEarly := by
  refine ⟨fun s t hr h => ⟨fun hf => ?validate, fun hf => ?decode⟩,
    fun s b hb => step_setPins_of_busy hb rfl rfl⟩
  case validate =>
    rw [step_validate hr hf] at h
    rcases tValidate_next h with ⟨e, -, rfl⟩ | ⟨hd, -, rfl⟩
    · exact .inr rfl
    · exact .inl rfl
  case decode =>
    obtain ⟨-, hends⟩ := errCode_fsm_of_decode_step hf hr h
    exact hends

/-- Settles O10: the verdict names the first failure, of which there is one, and an accepted header has none. -/
theorem verdictIsTheFirstFailingCheck : Obligations.VerdictIsTheFirstFailingCheck := by
  intro s e hf hr hplaced
  rw [step_validate hr hf]
  constructor
  · rintro ⟨t, ht, hferr, hcode⟩
    rcases tValidate_next ht with ⟨e', hv, rfl⟩ | ⟨hd, -, rfl⟩
    · obtain rfl : e' = e := errorCode_injective hcode
      exact firstFailure_of_reject hv
    · cases hferr
  · intro hfirst
    obtain ⟨t, ht⟩ := tValidate_next_of_headerPlaced hplaced
    rcases tValidate_next ht with ⟨e', hv, rfl⟩ | ⟨hd, hv, -⟩
    · obtain rfl : e' = e := firstFailure_unique (firstFailure_of_reject hv) hfirst
      exact ⟨_, ht, rfl, rfl⟩
    · obtain ⟨hfails, -⟩ := hfirst
      exact absurd hfails (not_headerFails_of_accept hv e)

/-- Settles O11: a step that enters ERROR is the error entry `raiseErr`, whose writes are its definition. -/
theorem errorEntryWritesOnlyTheCode : Obligations.ErrorEntryWritesOnlyTheCode := by
  constructor
  · intro s t hf h ht
    rcases step_error_cases h ht with ⟨hferr, -⟩ | ⟨-, -, e, rfl⟩
    · simp [hf] at hferr
    · exact ⟨⟨e, rfl⟩, errorCode_ne_zero e, rfl, rfl, rfl, fun ⟨_, hzero⟩ => hzero (.inr (.inl hf))⟩
  · intro s t h ht hne
    rcases step_error_cases h ht with ⟨hferr, -⟩ | ⟨hf, hr, -⟩
    · exact absurd hferr hne
    · exact ⟨hf, hr⟩

/-- Settles O44: neither T_START nor the error entry writes OUT, and ERROR promises all but what T_START left open. -/
theorem failedDecodeKeepsTheOutput : Obligations.FailedDecodeKeepsTheOutput := by
  intro s t u hr hs hf hstart hvalidate hferr
  obtain rfl := Host.Outcome.next.inj ((step_start hr hs hf).symm.trans hstart)
  rcases step_error_cases hvalidate hferr with ⟨habsurd, -⟩ | ⟨-, -, e, rfl⟩
  · cases habsurd
  · refine ⟨rfl, fun a => ?_⟩
    rw [outPromised_eq_of_not_busy hf, outPromised_idle_error (.inr hferr)]
    rfl

end Sys2Proof.Safety
end

section
/-! PROOFS. The reset and hazards family, part 1: where the host may write OUT, and what it may rely on after a
T_RESET and after a write of its own. -/

namespace Sys2Proof.Machine

open Sys2Proof

/-! ### Outside busy -/

/-- A block that is not busy is in IDLE, DONE or ERROR (R44). -/
theorem fsm_of_not_busy {s : State} (hb : busy s = false) : s.fsm = .idle ∨ s.fsm = .done ∨ s.fsm = .error := by
  cases hf : s.fsm <;> simp [busy, hf] at hb ⊢

/-! ### The bytes of OUT that the host may not write -/

/-- In DECODE they are the image (R324). -/
theorem imageMayHold_decode_iff {s : State} (hf : s.fsm = .decode) (a : Nat) :
    imageMayHold s a = true ↔ a < s.total.toNat * s.outCh.toNat := by
  simp [imageMayHold, hf]

/-- In VALIDATE a header that passes bars the image of the decode it starts (log 10). -/
theorem imageMayHold_validate_iff_of_accept {s : State} {hd : Header} (hf : s.fsm = .validate)
    (hv : headerVerdict s = .ok (.ok hd)) (a : Nat) :
    imageMayHold s a = true ↔ a < (startDecode hd s).total.toNat * (startDecode hd s).outCh.toNat := by
  simp [imageMayHold, hf, hv]

/-- In VALIDATE a header that fails bars no byte (log 10). -/
theorem imageMayHold_validate_of_reject {s : State} {e : HeaderError} (hf : s.fsm = .validate)
    (hv : headerVerdict s = .ok (.error e)) (a : Nat) : imageMayHold s a = false := by
  simp [imageMayHold, hf, hv]

/-- Outside busy no decode is under way, and no byte is barred (R324). -/
theorem imageMayHold_of_not_busy {s : State} (hf : s.fsm = .idle ∨ s.fsm = .done ∨ s.fsm = .error) (a : Nat) :
    imageMayHold s a = false := by
  rcases hf with hf | hf | hf <;> simp [imageMayHold, hf]

/-! ### An accepted host write -/

/-- The state after an accepted host write of `v` at `a`: the byte is known, and open no more. -/
def writtenOut (a : Nat) (v : Byte) (s : State) : State :=
  { s with outMem := memWrite s.outMem a v, outOpen := offsetsRemove a (a + 1) s.outOpen }

theorem hostMove_writeOut_of_not_barred {s : State} {a : Nat} (h : imageMayHold s a = false) (v : Byte) :
    hostMove (.writeOut a v) s = .next (writtenOut a v s) := by
  simp only [hostMove, h]
  rfl

/-- Outside busy, what a T_START would leave open after a host write at `a` is what it would have left open
before, without `a`. -/
theorem offsetIn_outOpenAfter_writtenOut {s : State} (hf : s.fsm = .idle ∨ s.fsm = .done ∨ s.fsm = .error)
    (a : Nat) (v : Byte) (x : Nat) :
    offsetIn (outOpenAfter (writtenOut a v s)) x = true ↔ offsetIn (outOpenAfter s) x = true ∧ x ≠ a := by
  have hne : ¬ (a ≤ x ∧ x < a + 1) ↔ x ≠ a := by omega
  rcases hf with hf | hf | hf <;> simp only [outOpenAfter, writtenOut, hf, offsetIn_offsetsRemove, hne]
  exact and_right_comm

end Sys2Proof.Machine

namespace Sys2Proof.Safety

open Sys2Proof Sys2Proof.Machine

/-- Outside busy the host is promised the byte it wrote, and at every other offset what it was promised before. -/
theorem outPromised_writtenOut {s : State} (hf : s.fsm = .idle ∨ s.fsm = .done ∨ s.fsm = .error)
    (a : Nat) (v : Byte) (x : Nat) :
    outPromised (writtenOut a v s) x = if x = a then some v else outPromised s x := by
  have hf' : (writtenOut a v s).fsm = .idle ∨ (writtenOut a v s).fsm = .done ∨ (writtenOut a v s).fsm = .error := hf
  have hread : memRead (writtenOut a v s).outMem x = if x = a then some v else memRead s.outMem x :=
    memRead_memWrite s.outMem a v x
  rw [outPromised_eq_of_not_busy hf', outPromised_eq_of_not_busy hf, hread]
  by_cases hx : x = a <;> simp [offsetIn_outOpenAfter_writtenOut hf, hx]

/-- A T_RESET in DECODE opens the whole image, so the host is promised no byte of it (R321, U5). -/
theorem outPromised_tReset_of_decode {s : State} (hf : s.fsm = .decode) {a : Nat}
    (ha : a < s.total.toNat * s.outCh.toNat) : outPromised (tReset s) a = none := by
  have hopen : offsetIn (tReset s).outOpen a = true := by
    have houtOpen : (tReset s).outOpen = outOpenAfter s := rfl
    rw [houtOpen, outOpenAfter, hf]
    exact (offsetIn_cons _ _ _ _).2 (.inl ⟨Nat.zero_le a, ha⟩)
  rw [outPromised_idle_error (.inl (tReset_fsm s)), if_pos hopen]

end Sys2Proof.Safety
end

section
/-! PROOFS. The reset and hazards family, part 2: its four statements. -/

namespace Sys2Proof.Safety

open Sys2Proof Sys2Proof.Machine

/-- Settles O45: the barred bytes are the image of the decode under way or about to start, and outside busy there
is none. -/
theorem hostWritesStayOffTheImage : Obligations.HostWritesStayOffTheImage := by
  intro s a v
  refine ⟨fun hf => ?decode, fun t hf hr h => ?validate, fun hb => ?notBusy⟩
  case decode => rw [hostMove_writeOut_refused_iff, imageMayHold_decode_iff hf]
  case validate =>
    rw [step_validate hr hf] at h
    rw [hostMove_writeOut_refused_iff]
    rcases tValidate_next h with ⟨e, hv, rfl⟩ | ⟨hd, hv, rfl⟩
    · simp [imageMayHold_validate_of_reject hf hv]
    · simp [imageMayHold_validate_iff_of_accept hf hv]
  case notBusy =>
    have hf := fsm_of_not_busy hb
    refine ⟨writtenOut a v s, hostMove_writeOut_of_not_barred (imageMayHold_of_not_busy hf a) v, ?_, fun x hx => ?_⟩
    · rw [outPromised_writtenOut hf, if_pos rfl]
    · rw [outPromised_writtenOut hf, if_neg hx]

/-- Settles O2: T_RESET precedes every other transition, and its writes are its definition. -/
theorem resetWinsFromEveryState : Obligations.ResetWinsFromEveryState := fun s hr =>
  ⟨tReset s, step_reset hr, rfl, rfl, rfl, rfl, rfl, rfl, rfl, rfl, rfl, rfl⟩

/-- Settles O3: T_RESET writes no byte of OUT, and the image of the decode it abandons becomes open. -/
theorem resetAbandonsTheDecode : Obligations.ResetAbandonsTheDecode := fun s hr hf =>
  ⟨tReset s, step_reset hr, rfl, rfl, rfl, fun _ => outPromised_tReset_of_decode hf⟩

/-- Settles O21: a T_PIXEL tests `out_ready` before anything else. -/
theorem stalledOutputHoldsTheDecode : Obligations.StalledOutputHoldsTheDecode := fun _ hf hr => step_stall hr hf

end Sys2Proof.Safety
end
